-- ==== Sys2Proof/Word.lean ====
section
/-! DEFINITION. The words of the machine: the widths the spec gives its values (10_state.md R20, R22, R23; 30_encoding.md R70, R72).
Every value is unsigned (00_scope.md R8). -/

namespace Sys2Proof

/-- An 8-bit value: a general register, a timer, a memory byte, an immediate `kk`. -/
abbrev Byte := BitVec 8

/-- A 16-bit value: an opcode, the program counter, the index register, a stack slot. -/
abbrev Word := BitVec 16

/-- A 12-bit `nnn` field. -/
abbrev Addr12 := BitVec 12

/-- A 4-bit field: the family selector `hi`, the row count `n`. -/
abbrev Nibble := BitVec 4

/-- A register number: every value of a 4-bit selector names a register (R20). -/
abbrev Reg := Fin 16

end Sys2Proof
end

