-- ==== Sys2Proof/Syntax.lean ====
section
/-! DEFINITION. The instruction set as syntax: one constructor for each of the 35 rows of spec/opcode_table.json
(30_encoding.md R75 to R79). Operand order is destination first (R80). -/

namespace Sys2Proof

/-- The closed set of instructions (30_encoding.md R81). Each docstring gives the pattern, the spec's variant name and its rule. -/
inductive Instr where
  /-- `00E0` `ClearDisplay`, R140. -/
  | cls
  /-- `00EE` `Return`, R94. -/
  | ret
  /-- `0nnn` `SystemCall`, R91: a decode failure, always. -/
  | sys (nnn : Addr12)
  /-- `1nnn` `Jump`, R92. -/
  | jp (nnn : Addr12)
  /-- `2nnn` `Call`, R93. -/
  | call (nnn : Addr12)
  /-- `3xkk` `SkipIfEqualImmediate`, R95. -/
  | seImm (x : Reg) (kk : Byte)
  /-- `4xkk` `SkipIfNotEqualImmediate`, R96. -/
  | sneImm (x : Reg) (kk : Byte)
  /-- `5xy0` `SkipIfEqualRegister`, R97. -/
  | seReg (x y : Reg)
  /-- `6xkk` `LoadImmediate`, R111. -/
  | ldImm (x : Reg) (kk : Byte)
  /-- `7xkk` `AddImmediate`, R112. -/
  | addImm (x : Reg) (kk : Byte)
  /-- `8xy0` `LoadRegister`, R113. -/
  | ldReg (x y : Reg)
  /-- `8xy1` `Or`, R114. -/
  | orReg (x y : Reg)
  /-- `8xy2` `And`, R115. -/
  | andReg (x y : Reg)
  /-- `8xy3` `Xor`, R116. -/
  | xorReg (x y : Reg)
  /-- `8xy4` `AddRegister`, R117. -/
  | addReg (x y : Reg)
  /-- `8xy5` `Sub`, R118. -/
  | sub (x y : Reg)
  /-- `8xy6` `ShiftRight`, R119. The `y` field is decoded and then ignored (R84; log 10). -/
  | shr (x y : Reg)
  /-- `8xy7` `SubFrom`, R120. -/
  | subn (x y : Reg)
  /-- `8xyE` `ShiftLeft`, R121. The `y` field is decoded and then ignored (R84; log 10). -/
  | shl (x y : Reg)
  /-- `9xy0` `SkipIfNotEqualRegister`, R98. -/
  | sneReg (x y : Reg)
  /-- `Annn` `LoadIndex`, R130. -/
  | ldI (nnn : Addr12)
  /-- `Bnnn` `JumpOffset`, R99. -/
  | jpV0 (nnn : Addr12)
  /-- `Cxkk` `Random`, R122. -/
  | rnd (x : Reg) (kk : Byte)
  /-- `Dxyn` `DisplaySprite`, R141, R142. -/
  | drw (x y : Reg) (n : Nibble)
  /-- `Ex9E` `SkipIfKeyPressed`, R150. -/
  | skp (x : Reg)
  /-- `ExA1` `SkipIfNotKeyPressed`, R151. -/
  | sknp (x : Reg)
  /-- `Fx07` `ReadDelayTimer`, R153. -/
  | ldVxDT (x : Reg)
  /-- `Fx0A` `WaitKeyPress`, R152. -/
  | ldVxK (x : Reg)
  /-- `Fx15` `SetDelayTimer`, R154. -/
  | ldDTVx (x : Reg)
  /-- `Fx18` `SetSoundTimer`, R155. -/
  | ldSTVx (x : Reg)
  /-- `Fx1E` `AddIndex`, R131. -/
  | addIVx (x : Reg)
  /-- `Fx29` `LoadGlyphAddress`, R132. -/
  | ldFVx (x : Reg)
  /-- `Fx33` `BinaryCodedDecimal`, R133. -/
  | ldBVx (x : Reg)
  /-- `Fx55` `StoreRegisters`, R134. -/
  | ldMemVx (x : Reg)
  /-- `Fx65` `ReadRegisters`, R135. -/
  | ldVxMem (x : Reg)
  deriving DecidableEq, Repr

/-- The six named formats (30_encoding.md R73). -/
inductive Format where
  | fixed | nnn | xkk | xy | xyn | x
  deriving DecidableEq, Repr

end Sys2Proof
end

