-- ==== Sys2Proof/Decode.lean ====
section
/-! DEFINITION. The decoder, a pure total function of the 16 opcode bits (30_encoding.md R81), the encoder after it, and the
opcode table's mask and match of each instruction. -/

namespace Sys2Proof

/-! ### Fields (R72) -/

/-- `hi` = `op[15:12]`. -/
def hiField (op : Word) : Fin 16 := (op.extractLsb' 12 4).toFin

/-- `x` = `op[11:8]`. -/
def xField (op : Word) : Reg := (op.extractLsb' 8 4).toFin

/-- `y` = `op[7:4]`. -/
def yField (op : Word) : Reg := (op.extractLsb' 4 4).toFin

/-- `n` = `op[3:0]`. -/
def nField (op : Word) : Nibble := op.extractLsb' 0 4

/-- `kk` = `op[7:0]`. -/
def kkField (op : Word) : Byte := op.extractLsb' 0 8

/-- `nnn` = `op[11:0]`. -/
def nnnField (op : Word) : Addr12 := op.extractLsb' 0 12

/-- Why bytes are no instruction. -/
inductive DecodeError where
  /-- `DecodeFailure(op)`: the opcode matches no row of the opcode table (R81, R82). -/
  | noMatch (op : Word)
  /-- Fewer than the two bytes of an instruction (R70). -/
  | truncated (bytes : Nat)
  deriving DecidableEq, Repr

/-! ### The opcode map (R75 to R79, R86) -/

/-- Family 0, matched on all 16 bits: `00E0`, `00EE`, and every other `0nnn` is the row `SYS` (R76, R86). -/
def decodeFamily0 (op : Word) : Except DecodeError Instr :=
  if op = 0x00E0 then .ok .cls
  else if op = 0x00EE then .ok .ret
  else .ok (.sys (nnnField op))

/-- Families 5 and 9 need a zero low nibble (R78). -/
def decodeZeroLow (mk : Reg → Reg → Instr) (op : Word) : Except DecodeError Instr :=
  if nField op = 0 then .ok (mk (xField op) (yField op)) else .error (.noMatch op)

/-- Family 8, on the low nibble (R77). -/
def decodeFamily8 (op : Word) : Except DecodeError Instr :=
  match (nField op).toNat with
  | 0x0 => .ok (.ldReg (xField op) (yField op))
  | 0x1 => .ok (.orReg (xField op) (yField op))
  | 0x2 => .ok (.andReg (xField op) (yField op))
  | 0x3 => .ok (.xorReg (xField op) (yField op))
  | 0x4 => .ok (.addReg (xField op) (yField op))
  | 0x5 => .ok (.sub (xField op) (yField op))
  | 0x6 => .ok (.shr (xField op) (yField op))
  | 0x7 => .ok (.subn (xField op) (yField op))
  | 0xE => .ok (.shl (xField op) (yField op))
  | _ => .error (.noMatch op)

/-- Family E, on the low byte (R79). -/
def decodeFamilyE (op : Word) : Except DecodeError Instr :=
  match (kkField op).toNat with
  | 0x9E => .ok (.skp (xField op))
  | 0xA1 => .ok (.sknp (xField op))
  | _ => .error (.noMatch op)

/-- Family F, on the low byte (R79). -/
def decodeFamilyF (op : Word) : Except DecodeError Instr :=
  match (kkField op).toNat with
  | 0x07 => .ok (.ldVxDT (xField op))
  | 0x0A => .ok (.ldVxK (xField op))
  | 0x15 => .ok (.ldDTVx (xField op))
  | 0x18 => .ok (.ldSTVx (xField op))
  | 0x1E => .ok (.addIVx (xField op))
  | 0x29 => .ok (.ldFVx (xField op))
  | 0x33 => .ok (.ldBVx (xField op))
  | 0x55 => .ok (.ldMemVx (xField op))
  | 0x65 => .ok (.ldVxMem (xField op))
  | _ => .error (.noMatch op)

/-- The row of the opcode table that an opcode matches, primary dispatch on `hi` (R75). The 4094 words of `SYS` are its
row; that the row is a decode failure is `decodeVerdict`, and the meaning of `.sys` (R91; DESIGN CHOICE, safe, log 5). `hi` is four bits, so the last arm is family 0xF. -/
def decode (op : Word) : Except DecodeError Instr :=
  match (hiField op).val with
  | 0x0 => decodeFamily0 op
  | 0x1 => .ok (.jp (nnnField op))
  | 0x2 => .ok (.call (nnnField op))
  | 0x3 => .ok (.seImm (xField op) (kkField op))
  | 0x4 => .ok (.sneImm (xField op) (kkField op))
  | 0x5 => decodeZeroLow .seReg op
  | 0x6 => .ok (.ldImm (xField op) (kkField op))
  | 0x7 => .ok (.addImm (xField op) (kkField op))
  | 0x8 => decodeFamily8 op
  | 0x9 => decodeZeroLow .sneReg op
  | 0xA => .ok (.ldI (nnnField op))
  | 0xB => .ok (.jpV0 (nnnField op))
  | 0xC => .ok (.rnd (xField op) (kkField op))
  | 0xD => .ok (.drw (xField op) (yField op) (nField op))
  | 0xE => decodeFamilyE op
  | _ => decodeFamilyF op

/-- The verdict of R81 on an opcode: an executable instruction, or `DecodeFailure(op)`. The words of `SYS` fail (R76, R91). -/
def decodeVerdict (op : Word) : Except DecodeError Instr :=
  match decode op with
  | .ok (.sys _) => .error (.noMatch op)
  | r => r

/-- An opcode from its two bytes, the byte at the lower address in bits 15 to 8 (20_memory.md R52; R71). -/
def wordOfBytes (high low : Byte) : Word := (high ++ low : BitVec (8 + 8)).cast rfl

/-- The byte of an opcode that lies at the lower address (R71). -/
def highByte (op : Word) : Byte := op.extractLsb' 8 8

/-- The byte of an opcode that lies at the higher address (R71). -/
def lowByte (op : Word) : Byte := op.extractLsb' 0 8

/-- The instruction at the head of any bytes, with the bytes after it (R70, R71). -/
def decodeBytes : List Byte → Except DecodeError (Instr × List Byte)
  | high :: low :: rest => (decode (wordOfBytes high low)).map (·, rest)
  | bytes => .error (.truncated bytes.length)

/-- The decoder on a word numbered as spec/opcode_table.json numbers it: `nbits` bits of `w`, the bits above are 0. -/
def decodeTableWord (nbits w : Nat) : Option Instr :=
  let op := BitVec.ofNat 16 (w % 2 ^ nbits)
  match decodeBytes [highByte op, lowByte op] with
  | .ok (i, _) => some i
  | .error _ => none

/-! ### The encoder (R71 to R79) -/

/-- Format `NNN`: `{hi, nnn}` (R73). -/
def packNNN (hi : Nibble) (nnn : Addr12) : Word := (hi ++ nnn : BitVec (4 + 12)).cast rfl

/-- Format `XKK`: `{hi, x, kk}` (R73), and format `X` with the fixed low byte as `kk`. -/
def packXKK (hi : Nibble) (x : Reg) (kk : Byte) : Word :=
  packNNN hi (((BitVec.ofFin x : Nibble) ++ kk : BitVec (4 + 8)).cast rfl)

/-- Format `XYN`: `{hi, x, y, n}` (R73), and format `XY` with the fixed low nibble as `n`. -/
def packXYN (hi : Nibble) (x y : Reg) (n : Nibble) : Word :=
  packXKK hi x (((BitVec.ofFin y : Nibble) ++ n : BitVec (4 + 4)).cast rfl)

/-- The word of an instruction, from the patterns of R75 to R79. -/
def encode : Instr → Word
  | .cls => 0x00E0
  | .ret => 0x00EE
  | .sys nnn => packNNN 0x0 nnn
  | .jp nnn => packNNN 0x1 nnn
  | .call nnn => packNNN 0x2 nnn
  | .seImm x kk => packXKK 0x3 x kk
  | .sneImm x kk => packXKK 0x4 x kk
  | .seReg x y => packXYN 0x5 x y 0x0
  | .ldImm x kk => packXKK 0x6 x kk
  | .addImm x kk => packXKK 0x7 x kk
  | .ldReg x y => packXYN 0x8 x y 0x0
  | .orReg x y => packXYN 0x8 x y 0x1
  | .andReg x y => packXYN 0x8 x y 0x2
  | .xorReg x y => packXYN 0x8 x y 0x3
  | .addReg x y => packXYN 0x8 x y 0x4
  | .sub x y => packXYN 0x8 x y 0x5
  | .shr x y => packXYN 0x8 x y 0x6
  | .subn x y => packXYN 0x8 x y 0x7
  | .shl x y => packXYN 0x8 x y 0xE
  | .sneReg x y => packXYN 0x9 x y 0x0
  | .ldI nnn => packNNN 0xA nnn
  | .jpV0 nnn => packNNN 0xB nnn
  | .rnd x kk => packXKK 0xC x kk
  | .drw x y n => packXYN 0xD x y n
  | .skp x => packXKK 0xE x 0x9E
  | .sknp x => packXKK 0xE x 0xA1
  | .ldVxDT x => packXKK 0xF x 0x07
  | .ldVxK x => packXKK 0xF x 0x0A
  | .ldDTVx x => packXKK 0xF x 0x15
  | .ldSTVx x => packXKK 0xF x 0x18
  | .addIVx x => packXKK 0xF x 0x1E
  | .ldFVx x => packXKK 0xF x 0x29
  | .ldBVx x => packXKK 0xF x 0x33
  | .ldMemVx x => packXKK 0xF x 0x55
  | .ldVxMem x => packXKK 0xF x 0x65

/-! ### The opcode table's own columns -/

/-- The format of an instruction (R73; column "format"). -/
def Instr.format : Instr → Format
  | .cls | .ret => .fixed
  | .sys _ | .jp _ | .call _ | .ldI _ | .jpV0 _ => .nnn
  | .seImm _ _ | .sneImm _ _ | .ldImm _ _ | .addImm _ _ | .rnd _ _ => .xkk
  | .seReg _ _ | .ldReg _ _ | .orReg _ _ | .andReg _ _ | .xorReg _ _ | .addReg _ _ | .sub _ _ | .shr _ _ | .subn _ _
  | .shl _ _ | .sneReg _ _ => .xy
  | .drw _ _ _ => .xyn
  | .skp _ | .sknp _ | .ldVxDT _ | .ldVxK _ | .ldDTVx _ | .ldSTVx _ | .addIVx _ | .ldFVx _ | .ldBVx _ | .ldMemVx _
  | .ldVxMem _ => .x

/-- The bits a format fixes (column "mask"; R73). -/
def Format.mask : Format → Word
  | .fixed => 0xFFFF
  | .nnn | .xkk | .xyn => 0xF000
  | .xy => 0xF00F
  | .x => 0xF0FF

/-- The value of those bits (column "match"; R75 to R79). -/
def Instr.pattern : Instr → Word
  | .cls => 0x00E0
  | .ret => 0x00EE
  | .sys _ => 0x0000
  | .jp _ => 0x1000
  | .call _ => 0x2000
  | .seImm _ _ => 0x3000
  | .sneImm _ _ => 0x4000
  | .seReg _ _ => 0x5000
  | .ldImm _ _ => 0x6000
  | .addImm _ _ => 0x7000
  | .ldReg _ _ => 0x8000
  | .orReg _ _ => 0x8001
  | .andReg _ _ => 0x8002
  | .xorReg _ _ => 0x8003
  | .addReg _ _ => 0x8004
  | .sub _ _ => 0x8005
  | .shr _ _ => 0x8006
  | .subn _ _ => 0x8007
  | .shl _ _ => 0x800E
  | .sneReg _ _ => 0x9000
  | .ldI _ => 0xA000
  | .jpV0 _ => 0xB000
  | .rnd _ _ => 0xC000
  | .drw _ _ _ => 0xD000
  | .skp _ => 0xE09E
  | .sknp _ => 0xE0A1
  | .ldVxDT _ => 0xF007
  | .ldVxK _ => 0xF00A
  | .ldDTVx _ => 0xF015
  | .ldSTVx _ => 0xF018
  | .addIVx _ => 0xF01E
  | .ldFVx _ => 0xF029
  | .ldBVx _ => 0xF033
  | .ldMemVx _ => 0xF055
  | .ldVxMem _ => 0xF065

end Sys2Proof
end

