-- ==== Sys2Proof/Config.lean ====
section
/-! DEFINITION. What is fixed of this hardware (00_scope.md R6, the rows of kind "fixed") and the one value the spec leaves free.
The two rows of kind "parameter" that a test could show wrong, the memory size and the font, stand in Machine/Parameters.lean. -/

namespace Sys2Proof

/-- `PROG_BASE`: where the image goes and where `PC` starts (R6, R23, R193). -/
def Config.progBase : Nat := 0x200

/-- `FONT_BASE`: the address of glyph 0 (R6, R58). -/
def Config.fontBase : Nat := 0x050

/-- `FONT_END`: the address of the last font byte (R6, R58). -/
def Config.fontEnd : Nat := 0x09F

/-- `GLYPH_BYTES` (R6). -/
def Config.glyphBytes : Nat := 5

/-- The byte `draw8()` gives when the host has supplied none: free value number `n`, under no law (10_state.md R39).
It has no body on purpose: nothing can be proved of its value (DESIGN CHOICE of form, safe; log 1). -/
opaque Config.entropy : Nat → Byte

end Sys2Proof
end

