-- ==== Sys2Proof/Machine/Parameters.lean ====
section
/-! DEFINITION. The two parameters a model takes (00_scope.md R6; 92_eei_decisions.md, "Parameters a model takes") and what
follows from them. They stand here, beside the meanings, because the source's literals are unaudited (90_conflicts.md C1). -/

namespace Sys2Proof

/-- `MEM_SIZE`, default 4095: addresses 0x000 to 0xFFE exist (R51; 90_conflicts.md C1; UNVERIFIED, safe, log 11). -/
def Config.memSize : Nat := 0xFFF

/-- `MAX_IMAGE` = `MEM_SIZE - PROG_BASE` = 3583 bytes (R6, R191). -/
def Config.maxImage : Nat := Config.memSize - Config.progBase

/-- `FONT`: 16 glyphs of 5 bytes, digit 0 first (70_reset_and_hazards.md R192; UNVERIFIED, unsafe for claims about glyph
pixels only, log 23). -/
def Config.font : List Byte :=
  [0xF0, 0x90, 0x90, 0x90, 0xF0] ++ [0x20, 0x60, 0x20, 0x20, 0x70] ++
  [0xF0, 0x10, 0xF0, 0x80, 0xF0] ++ [0xF0, 0x10, 0xF0, 0x10, 0xF0] ++
  [0x90, 0x90, 0xF0, 0x10, 0x10] ++ [0xF0, 0x80, 0xF0, 0x10, 0xF0] ++
  [0xF0, 0x80, 0xF0, 0x90, 0xF0] ++ [0xF0, 0x10, 0x20, 0x40, 0x40] ++
  [0xF0, 0x90, 0xF0, 0x90, 0xF0] ++ [0xF0, 0x90, 0xF0, 0x10, 0xF0] ++
  [0xF0, 0x90, 0xF0, 0x90, 0x90] ++ [0xE0, 0x90, 0xE0, 0x90, 0xE0] ++
  [0xF0, 0x80, 0x80, 0x80, 0xF0] ++ [0xE0, 0x90, 0x90, 0x90, 0xE0] ++
  [0xF0, 0x80, 0xF0, 0x80, 0xF0] ++ [0xF0, 0x80, 0xF0, 0x80, 0x80]

end Sys2Proof
end

