-- ==== Sys2Proof/Machine/State.lean ====
section
/-! DEFINITION. The state of the machine as plain data, its faults and refusals, and the state after reset
(10_state.md; 60_exceptions.md R160; 70_reset_and_hazards.md R190). -/

namespace Sys2Proof.Machine

/-- Byte memory: the cells that differ from the reset contents, by rising address (Machine/Memory.lean says what an
unlisted address reads as and when the list is canonical; log 3). -/
abbrev Memory := List Host.Cell

/-- The display buffer: `PIX[x][y]` is element `y` of column `x`; true is ON (10_state.md R30; layout: DESIGN CHOICE, safe, log 9). -/
abbrev Display := Vector (Vector Bool 32) 64

/-- The keypad snapshot: true is pressed (10_state.md R31). -/
abbrev Keypad := Vector Bool 16

/-- Which access left memory (60_exceptions.md R160). -/
inductive Access where
  /-- The two bytes of an instruction (20_memory.md R53). -/
  | fetch
  /-- The bytes at `I` and up that an instruction reads or writes (20_memory.md R60). -/
  | data
  deriving DecidableEq, Repr

/-- Why a step ends without completing: the faults of 60_exceptions.md R160, none other. Each is a value `step` returns, not a
transfer of control (R169). What the step leaves is `State.afterFault` (R161). -/
inductive Fault where
  /-- Raised by decode, and by `SYS`, for the 21582 opcodes of R82. Safe: the spec names it. -/
  | decodeFailure (op : Word)
  /-- Raised by `CALL` with `SP` = 15 (R93, R164). Safe: if the original allows more, the model only stops earlier (log 13). -/
  | stackOverflow (sp : Fin 16)
  /-- Raised by `RET` with `SP` = 0 (R94, R165). Safe (log 13). -/
  | stackUnderflow
  /-- Raised by the fetch (R53) and by `DRW`, `LD B`, `LD [I]`, `LD Vx,[I]` (R60, R166), with the highest offending address,
  a number of at most 17 bits (R160). Safe (log 14). -/
  | memoryOutOfRange (kind : Access) (addr : Nat)
  /-- Raised by `SKP` and `SKNP` with `V[x]` above 15 (R150, R151, R167). Safe (log 19). -/
  | keyIndexOutOfRange (k : Byte)
  /-- Raised by `LD F` with `V[x]` above 15 (R132, R167). Safe (log 19). -/
  | glyphIndexOutOfRange (d : Byte)
  deriving DecidableEq, Repr

/-- Why a step has no meaning in this model. -/
inductive Refusal where
  /-- Raised by `exec` alone, for an instruction whose meaning is not written yet; no arm of `exec` raises it any more. Safe. -/
  | notModelled (mnemonic : String)
  deriving DecidableEq, Repr

/-- Everything the spec gives the machine (00_scope.md R13), and the two fields that stand for the entropy input (log 1). -/
@[ext]
structure State where
  /-- `V[0]` to `V[15]`; `V[15]` is also the flag `VF` (R20, R21). -/
  v : Vector Byte 16
  /-- `I`, the index register (R22). -/
  i : Word
  /-- `PC`; during the execute phase it holds `pc0 + 2` (R23, R10). -/
  pc : Word
  /-- `SP`, the number of return addresses held (R26, R27). -/
  sp : Fin 16
  /-- `STACK[0]` to `STACK[15]` (R26); the live slots are 1 to `SP` (R27). -/
  stack : Vector Word 16
  /-- `DT` (R28). -/
  dt : Byte
  /-- `ST` (R29). -/
  st : Byte
  /-- `PIX` (R30). -/
  pix : Display
  /-- `KEY` (R31). -/
  key : Keypad
  /-- `MEM` (R32). -/
  mem : Memory
  /-- The model's own: bytes supplied for `draw8()` and not yet consumed (R39; log 1). -/
  entropyIn : List Byte
  /-- The model's own: how many free draws have been taken (R39; log 1). -/
  entropyCount : Nat
  deriving DecidableEq, Repr

/-- What one step or one meaning answers. -/
abbrev Result := Host.Outcome State Fault Refusal

/-- The machine right after reset with the empty image (R38, R190): the font is what unlisted memory reads as. The two
entropy fields have no reset value in the spec: nothing supplied, nothing taken (DESIGN CHOICE, log 1). -/
def State.reset : State where
  v := Vector.replicate 16 0
  i := 0
  pc := BitVec.ofNat 16 Config.progBase
  sp := 0
  stack := Vector.replicate 16 0
  dt := 0
  st := 0
  pix := Vector.replicate 64 (Vector.replicate 32 false)
  key := Vector.replicate 16 false
  mem := []
  entropyIn := []
  entropyCount := 0

end Sys2Proof.Machine
end

