-- ==== Sys2Proof/Machine/Memory.lean ====
section
/-! DEFINITION. Byte memory: one canonical list, one read, one write (20_memory.md R50 to R55). -/

namespace Sys2Proof.Machine

/-- What an address that no cell lists reads as: its reset contents without an image, the font at 0x050 to 0x09F and 0
elsewhere (10_state.md R38; 70_reset_and_hazards.md R190, R192; DEDUCED, safe, log 3). -/
def Memory.unlisted (a : Nat) : Byte :=
  if a < Config.fontBase then 0 else Config.font.getD (a - Config.fontBase) 0

/-- `MEM[a]`. -/
def Memory.read (m : Memory) (a : Nat) : Byte :=
  match m with
  | [] => Memory.unlisted a
  | (k, b) :: rest => if k = a then b else Memory.read rest a

/-- A cell in front of a list of cells at higher addresses, left out where it says what an unlisted address reads as. -/
def Memory.consCell (a : Nat) (b : Byte) (rest : Memory) : Memory :=
  if b = Memory.unlisted a then rest else (a, b) :: rest

/-- Puts `b` at `a` in a list with rising addresses and keeps it canonical. -/
def Memory.insert (m : Memory) (a : Nat) (b : Byte) : Memory :=
  match m with
  | [] => Memory.consCell a b []
  | (k, c) :: rest =>
    if a < k then Memory.consCell a b ((k, c) :: rest)
    else if a = k then Memory.consCell a b rest
    else (k, c) :: Memory.insert rest a b

/-- `MEM[a] <- b` where `a` exists (R51, R55); every caller has checked that it does, and elsewhere there is nothing to
write (DESIGN CHOICE, safe, log 6). -/
def Memory.write (m : Memory) (a : Nat) (b : Byte) : Memory :=
  if a < Config.memSize then Memory.insert m a b else m

/-- Bytes at `a`, `a + 1`, and so on, in this order (42_index_memory.md R136). -/
def Memory.writeBytes (m : Memory) (a : Nat) : List Byte → Memory
  | [] => m
  | b :: rest => Memory.writeBytes (Memory.write m a b) (a + 1) rest

/-- The canonical form from address `lo` up: addresses rise, exist, and no cell says what an unlisted address reads as. -/
def Memory.wfFrom (lo : Nat) : Memory → Bool
  | [] => true
  | (a, b) :: rest => decide (lo ≤ a) && decide (a < Config.memSize) && decide (b ≠ Memory.unlisted a) && Memory.wfFrom (a + 1) rest

/-- The canonical form: equal memories are equal lists (log 3). -/
def Memory.wf (m : Memory) : Bool := Memory.wfFrom 0 m

end Sys2Proof.Machine
end

