-- ==== Sys2Proof/Machine/Ops.lean ====
section
/-! DEFINITION. The named operations over registers, stack, memory, display and entropy; the fetch; what raising a fault does
and what a faulting step leaves. Every read and write of the state goes through these. -/

namespace Sys2Proof.Machine

/-! ### Registers (10_state.md R20 to R29) -/

/-- `V[x]`. -/
def State.readV (s : State) (x : Reg) : Byte := s.v.get x

/-- `V[x] <- b`. -/
def State.writeV (s : State) (x : Reg) (b : Byte) : State := { s with v := s.v.set x b }

/-- The register that doubles as the flag, `VF` = `V[15]` (R21). -/
abbrev vf : Reg := 15

/-- `V[0 .. 15] <- regs`. -/
def State.writeRegs (s : State) (regs : Vector Byte 16) : State := { s with v := regs }

/-- `I <- w`. -/
def State.writeI (s : State) (w : Word) : State := { s with i := w }

/-- `PC <- w`. -/
def State.writePc (s : State) (w : Word) : State := { s with pc := w }

/-- `DT <- b`. -/
def State.writeDt (s : State) (b : Byte) : State := { s with dt := b }

/-- `ST <- b`. -/
def State.writeSt (s : State) (b : Byte) : State := { s with st := b }

/-! ### Call stack (R26, R27) -/

/-- `STACK[k]`. -/
def State.readStack (s : State) (k : Fin 16) : Word := s.stack.get k

/-- `SP <- SP + 1`, then `STACK[SP] <- w`; `CALL` has checked `SP` = 15 before (R93). -/
def State.push (s : State) (w : Word) : State :=
  { s with sp := s.sp + 1, stack := s.stack.set (s.sp + 1).val w (s.sp + 1).isLt }

/-- `SP <- SP - 1`; the slot popped keeps its value; `RET` has checked `SP` = 0 before (R94). -/
def State.pop (s : State) : State := { s with sp := s.sp - 1 }

/-! ### Display and keypad (R30, R31) -/

/-- `PIX[x][y]`. -/
def Display.cell (d : Display) (x : Fin 64) (y : Fin 32) : Bool := (d.get x).get y

/-- `PIX[x][y] <- b`. -/
def Display.setCell (d : Display) (x : Fin 64) (y : Fin 32) (b : Bool) : Display := d.set x ((d.get x).set y b)

/-- Every cell OFF (43_display.md R140). -/
def Display.clear : Display := Vector.replicate 64 (Vector.replicate 32 false)

/-- `PIX <- d`. -/
def State.writePix (s : State) (d : Display) : State := { s with pix := d }

/-- `KEY[k]`. -/
def State.readKey (s : State) (k : Fin 16) : Bool := s.key.get k

/-- `KEY[0 .. 15] <- pressed`, all at once (60_exceptions.md R172). -/
def State.writeKeys (s : State) (pressed : Keypad) : State := { s with key := pressed }

/-! ### Entropy (R39; log 1) -/

/-- `draw8()`: the next byte the host has supplied, or else a free value. -/
def State.draw (s : State) : Byte := s.entropyIn.headD (Config.entropy s.entropyCount)

/-- The draw is consumed once: a supplied byte is taken off the list, a free value moves the counter on. -/
def State.consumeDraw (s : State) : State :=
  if s.entropyIn = [] then { s with entropyCount := s.entropyCount + 1 } else { s with entropyIn := s.entropyIn.tail }

/-- The bytes the host supplies for the draws to come. -/
def State.supply (s : State) (bytes : List Byte) : State := { s with entropyIn := bytes }

/-! ### Memory (20_memory.md) -/

/-- `MEM[a]`, for an address that has been checked. -/
def State.byteAt (s : State) (a : Nat) : Byte := s.mem.read a

/-- `MEM[a ..] <- bytes`, for addresses that have been checked. -/
def State.storeBytes (s : State) (a : Nat) (bytes : List Byte) : State := { s with mem := s.mem.writeBytes a bytes }

/-- `MemRead(addr, 1)` (R54): none is the out-of-range access. -/
def State.memRead1 (s : State) (addr : Nat) : Option Byte :=
  if addr < Config.memSize then some (s.byteAt addr) else none

/-- `MemRead(addr, 2)`, the fetch's read, big-endian (R52, R54): none is the out-of-range access. -/
def State.memRead2 (s : State) (addr : Nat) : Option Word :=
  if addr + 1 < Config.memSize then some (wordOfBytes (s.byteAt addr) (s.byteAt (addr + 1))) else none

/-- `MemWrite(addr, 1, v)` (R55): none is the out-of-range access. -/
def State.memWrite1 (s : State) (addr : Nat) (b : Byte) : Option State :=
  if addr < Config.memSize then some (s.storeBytes addr [b]) else none

/-! ### Faults (60_exceptions.md R160, R161, R169) -/

/-- Raising a fault, the one operation every fault goes through: the step ends with it. There is no fault entry: nothing is
saved, no mode changes, `PC` is not redirected (R169). -/
def raise (f : Fault) : Result := .fault f

/-- What a step that began in `s` and ended in the fault leaves (R161; 90_conflicts.md C2; UNVERIFIED, log 12): after a fetch
fault all is as before; after a decode or execute fault the fetch's `PC <- pc0 + 2` stays and nothing else has changed. -/
def State.afterFault (s : State) : Fault → State
  | .memoryOutOfRange .fetch _ => s
  | .memoryOutOfRange .data _ | .decodeFailure _ | .stackOverflow _ | .stackUnderflow | .keyIndexOutOfRange _
  | .glyphIndexOutOfRange _ => s.writePc (s.pc + 2)

/-- The number of a fault at a result port; `OK` is 0 (R160). -/
def Fault.code : Fault → Nat
  | .decodeFailure _ => 1
  | .stackOverflow _ => 2
  | .stackUnderflow => 3
  | .memoryOutOfRange _ _ => 4
  | .keyIndexOutOfRange _ => 5
  | .glyphIndexOutOfRange _ => 6

/-! ### The fetch (R53) -/

/-- The opcode at `PC`, where both its bytes exist; `PC + 1` is an integer, no wrap (R53). -/
def State.fetchWord (s : State) : Option Word := s.memRead2 s.pc.toNat

/-- `PC <- (PC + 2) mod 2^16`, the fetch's advance (R53). -/
def State.advance (s : State) : State := s.writePc (s.pc + 2)

end Sys2Proof.Machine
end

