-- ==== Sys2Proof/Machine/Flags.lean ====
section
/-! DEFINITION. The only flag is `VF` (10_state.md R35); these are its values for the five flag-writing forms of family 8
(41_alu.md R124) and the order in which result and flag are written (R110). The collision flag of `DRW` is in Display.lean. -/

namespace Sys2Proof.Machine

/-- A flag as the byte `VF` receives, 0 or 1 (R35). -/
def flagByte (b : Bool) : Byte := if b then 1 else 0

/-- The carry out of `a + b`: the sum exceeds 255 (R117). -/
def carryFlag (a b : Byte) : Byte := flagByte (decide (a.toNat + b.toNat > 255))

/-- Minuend strictly greater than subtrahend (R118, R120; 90_conflicts.md C3; UNVERIFIED, log 28). -/
def greaterFlag (minuend subtrahend : Byte) : Byte := flagByte (decide (minuend.toNat > subtrahend.toNat))

/-- The bit a right shift puts out: `a[0]` (R119). -/
def shiftedOutRight (a : Byte) : Byte := flagByte (a.getLsbD 0)

/-- The bit a left shift puts out: `a[7]` (R121). -/
def shiftedOutLeft (a : Byte) : Byte := flagByte (a.getLsbD 7)

/-- `V[x] <- result`, then `VF <- flag`, so the flag survives where `x` is 15 (R110; UNVERIFIED, unsafe for programs that
name `VF` as destination, log 16). -/
def State.writeWithFlag (s : State) (x : Reg) (result flag : Byte) : State := (s.writeV x result).writeV vf flag

end Sys2Proof.Machine
end

