-- ==== Sys2Proof/Machine/Operands.lean ====
section
/-! DEFINITION. The operand forms: immediates (30_encoding.md R74), the one data addressing mode (42_index_memory.md R136) with
its range check (20_memory.md R60), and the two register-held numbers that are checked (44_keypad_timers.md R150; 42_index_memory.md R132). -/

namespace Sys2Proof.Machine

/-- `zext_16` of an address field (00_scope.md R8, 30_encoding.md R74). -/
def zextAddr (nnn : Addr12) : Word := nnn.zeroExtend 16

/-- `zext_16` of a byte (00_scope.md R8). -/
def zextByte (b : Byte) : Word := b.zeroExtend 16

/-- The address of byte `k` of a data access, over the integers: `I + k` (R136). -/
def State.dataAddr (s : State) (k : Nat) : Nat := s.i.toNat + k

/-- The range check of an instruction that touches the `k` bytes at `I` and up, before its first read or write: with `k` = 0
there is no access and no check (R60). -/
def State.withDataRange (s : State) (k : Nat) (go : Result) : Result :=
  if k = 0 ∨ s.dataAddr (k - 1) < Config.memSize then go else raise (.memoryOutOfRange .data (s.dataAddr (k - 1)))

/-- The key that `V[x]` numbers, or the fault of a number above 15 (R150, R151). -/
def State.withKey (s : State) (x : Reg) (go : Fin 16 → Result) : Result :=
  if h : (s.readV x).toNat < 16 then go ⟨(s.readV x).toNat, h⟩ else raise (.keyIndexOutOfRange (s.readV x))

/-- The digit that `V[x]` holds, or the fault of a number above 15 (R132). -/
def State.withGlyph (s : State) (x : Reg) (go : Fin 16 → Result) : Result :=
  if h : (s.readV x).toNat < 16 then go ⟨(s.readV x).toNat, h⟩ else raise (.glyphIndexOutOfRange (s.readV x))

/-- The address of the glyph of a digit: `FONT_BASE + GLYPH_BYTES * d` (R132). -/
def glyphAddr (d : Fin 16) : Word := BitVec.ofNat 16 (Config.fontBase + Config.glyphBytes * d.val)

/-- The hundreds, tens and ones digits of a byte, each a whole byte (R133). -/
def bcdDigits (b : Byte) : List Byte :=
  [BitVec.ofNat 8 (b.toNat / 100), BitVec.ofNat 8 (b.toNat / 10 % 10), BitVec.ofNat 8 (b.toNat % 10)]

/-- The bytes of `V[0]` to `V[x]`, ascending (R134). -/
def State.regsThrough (s : State) (x : Reg) : List Byte :=
  ((List.finRange 16).take (x.val + 1)).map s.readV

/-- The register file with `V[0]` to `V[x]` taken from memory at `I` and up and the others as they are (R135). -/
def State.regsLoaded (s : State) (x : Reg) : Vector Byte 16 :=
  Vector.ofFn fun r : Fin 16 => if r ≤ x then s.byteAt (s.dataAddr r.val) else s.readV r

/-- The least pressed key (R152). -/
def State.lowestKey (s : State) : Option (Fin 16) := (List.finRange 16).find? fun k => s.readKey k

end Sys2Proof.Machine
end

