-- ==== Sys2Proof/Machine/Alu.lean ====
section
/-! DEFINITION. The meanings of the load, arithmetic, logic, shift and random instructions (41_alu.md). Sources are read before
any write (R110); results wrap modulo 256 (R123); `PC` stays the post-fetch value. -/

namespace Sys2Proof.Machine

/-- `LD Vx, kk` (R111). -/
def execLdImm (x : Reg) (kk : Byte) (s : State) : Result := .next (s.writeV x kk)

/-- `ADD Vx, kk`: the carry is lost, `VF` is not a flag here (R112; log 17). -/
def execAddImm (x : Reg) (kk : Byte) (s : State) : Result :=
  .next (s.writeV x (BitVec.ofNat 8 ((s.readV x).toNat + kk.toNat)))

/-- `LD Vx, Vy` (R113). -/
def execLdReg (x y : Reg) (s : State) : Result := .next (s.writeV x (s.readV y))

/-- `OR Vx, Vy`: `VF` unchanged (R114; log 17). -/
def execOr (x y : Reg) (s : State) : Result := .next (s.writeV x (s.readV x ||| s.readV y))

/-- `AND Vx, Vy`: `VF` unchanged (R115; log 17). -/
def execAnd (x y : Reg) (s : State) : Result := .next (s.writeV x (s.readV x &&& s.readV y))

/-- `XOR Vx, Vy`: `VF` unchanged (R116; log 17). -/
def execXor (x y : Reg) (s : State) : Result := .next (s.writeV x (s.readV x ^^^ s.readV y))

/-- `ADD Vx, Vy`: the sum over the integers, cut to 8 bits; `VF` is the carry (R117). -/
def execAddReg (x y : Reg) (s : State) : Result :=
  let a := s.readV x
  let b := s.readV y
  .next (s.writeWithFlag x (BitVec.ofNat 8 (a.toNat + b.toNat)) (carryFlag a b))

/-- `SUB Vx, Vy`: `V[x] - V[y]` modulo 256; `VF` is 1 iff `V[x] > V[y]` (R118). -/
def execSub (x y : Reg) (s : State) : Result :=
  let a := s.readV x
  let b := s.readV y
  .next (s.writeWithFlag x (BitVec.ofInt 8 ((a.toNat : Int) - b.toNat)) (greaterFlag a b))

/-- `SHR Vx`: logical, by one; `V[y]` is neither read nor written (R119, R84). -/
def execShr (x _y : Reg) (s : State) : Result :=
  let a := s.readV x
  .next (s.writeWithFlag x (BitVec.ofNat 8 (a.toNat / 2)) (shiftedOutRight a))

/-- `SUBN Vx, Vy`: `V[y] - V[x]` modulo 256; `VF` is 1 iff `V[y] > V[x]` (R120). -/
def execSubn (x y : Reg) (s : State) : Result :=
  let a := s.readV x
  let b := s.readV y
  .next (s.writeWithFlag x (BitVec.ofInt 8 ((b.toNat : Int) - a.toNat)) (greaterFlag b a))

/-- `SHL Vx`: by one, cut to 8 bits; `V[y]` is neither read nor written (R121, R84). -/
def execShl (x _y : Reg) (s : State) : Result :=
  let a := s.readV x
  .next (s.writeWithFlag x (BitVec.ofNat 8 (2 * a.toNat)) (shiftedOutLeft a))

/-- `RND Vx, kk`: a draw, consumed once, under the mask (R122, R39; log 1). -/
def execRnd (x : Reg) (kk : Byte) (s : State) : Result := .next (s.consumeDraw.writeV x (s.draw &&& kk))

end Sys2Proof.Machine
end

