-- ==== Sys2Proof/Machine/ControlFlow.lean ====
section
/-! DEFINITION. The meanings of the control-flow instructions (40_control_flow.md). Each runs on the state after the fetch, whose
`PC` is `pc0 + 2` (00_scope.md R10). -/

namespace Sys2Proof.Machine

/-- The common rule of the skips: `PC <- (PC + 2) mod 2^16` when the condition holds, else nothing (R100). -/
def skipIf (cond : Bool) (s : State) : Result := .next (if cond then s.writePc (s.pc + 2) else s)

/-- `SYS nnn`: `raise DecodeFailure(op)` (R91; log 5, log 15). -/
def execSys (nnn : Addr12) (_s : State) : Result := raise (.decodeFailure (packNNN 0x0 nnn))

/-- `JP nnn` (R92). -/
def execJp (nnn : Addr12) (s : State) : Result := .next (s.writePc (zextAddr nnn))

/-- `CALL nnn`: the slot written is `SP + 1` and the value pushed is the post-fetch `PC` (R93, R27). -/
def execCall (nnn : Addr12) (s : State) : Result :=
  if s.sp = 15 then raise (.stackOverflow s.sp) else .next ((s.push s.pc).writePc (zextAddr nnn))

/-- `RET` (R94, R27). -/
def execRet (s : State) : Result :=
  if s.sp = 0 then raise .stackUnderflow else .next ((s.writePc (s.readStack s.sp)).pop)

/-- `SE Vx, kk` (R95). -/
def execSeImm (x : Reg) (kk : Byte) (s : State) : Result := skipIf (s.readV x == kk) s

/-- `SNE Vx, kk` (R96). -/
def execSneImm (x : Reg) (kk : Byte) (s : State) : Result := skipIf (s.readV x != kk) s

/-- `SE Vx, Vy` (R97). -/
def execSeReg (x y : Reg) (s : State) : Result := skipIf (s.readV x == s.readV y) s

/-- `SNE Vx, Vy` (R98). -/
def execSneReg (x y : Reg) (s : State) : Result := skipIf (s.readV x != s.readV y) s

/-- `JP V0, nnn`: the 16-bit sum, not cut to 12 bits (R99; UNVERIFIED, log 18). -/
def execJpV0 (nnn : Addr12) (s : State) : Result := .next (s.writePc (zextAddr nnn + zextByte (s.readV 0)))

end Sys2Proof.Machine
end

