-- ==== Sys2Proof/Machine/Display.lean ====
section
/-! DEFINITION. The meanings of the display instructions (43_display.md): `CLS` and the sprite-draw engine `DRW`. -/

namespace Sys2Proof.Machine

/-- `CLS`: every cell OFF, `VF` not written (R140). -/
def execCls (s : State) : Result := .next (s.writePix Display.clear)

/-- Bit `col` of a sprite row from the left: bit 7 is the left-most pixel (R141; UNVERIFIED, log 22). -/
def spriteBit (row : Byte) (col : Nat) : Bool := row.getLsbD (7 - col)

/-- A column, reduced modulo 64 (R143). -/
def wrapCol (c : Nat) : Fin 64 := ⟨c % 64, Nat.mod_lt c (by decide)⟩

/-- A row, reduced modulo 32 (R143). -/
def wrapRow (r : Nat) : Fin 32 := ⟨r % 32, Nat.mod_lt r (by decide)⟩

/-- One sprite bit at column `cx`, row `cy`, coordinates that wrap modulo 64 and 32 (R143): a 1 inverts the cell, and inverting
a cell that is ON is a collision; a 0 does nothing (R141). The pair is the display and the collision so far. -/
def drawBit (cx cy : Nat) (bit : Bool) (acc : Display × Bool) : Display × Bool :=
  if bit then
    let old := acc.1.cell (wrapCol cx) (wrapRow cy)
    (acc.1.setCell (wrapCol cx) (wrapRow cy) (!old), acc.2 || old)
  else acc

/-- One sprite row: its 8 bits from column `ox` on (R141). -/
def drawRow (ox cy : Nat) (row : Byte) (acc : Display × Bool) : Display × Bool :=
  (List.range 8).foldl (fun acc col => drawBit (ox + col) cy (spriteBit row col) acc) acc

/-- The sprite rows from row `oy` on (R141). -/
def drawRows (ox : Nat) : Nat → List Byte → Display × Bool → Display × Bool
  | _, [], acc => acc
  | cy, row :: rest, acc => drawRows ox (cy + 1) rest (drawRow ox cy row acc)

/-- The `n` sprite bytes at `I` and up (R141). -/
def State.spriteRows (s : State) (n : Nat) : List Byte := (List.range n).map fun k => s.byteAt (s.dataAddr k)

/-- `DRW Vx, Vy, n`: origin read before `VF` is written; with `n` = 0 nothing is read or drawn and `VF` is 0 (R141, R142; log 26). -/
def execDrw (x y : Reg) (n : Nibble) (s : State) : Result :=
  s.withDataRange n.toNat
    (let drawn := drawRows (s.readV x).toNat (s.readV y).toNat (s.spriteRows n.toNat) (s.pix, false)
     .next ((s.writePix drawn.1).writeV vf (flagByte drawn.2)))

end Sys2Proof.Machine
end

