-- ==== Sys2Proof/Machine/IndexMemory.lean ====
section
/-! DEFINITION. The meanings of the index-register and memory instructions (42_index_memory.md). None writes `PC`, and none
that accesses memory changes `I` (R136). -/

namespace Sys2Proof.Machine

/-- `LD I, nnn` (R130). -/
def execLdI (nnn : Addr12) (s : State) : Result := .next (s.writeI (zextAddr nnn))

/-- `ADD I, Vx`: modulo 2^16, `VF` not written (R131; log 17). -/
def execAddIVx (x : Reg) (s : State) : Result := .next (s.writeI (s.i + zextByte (s.readV x)))

/-- `LD F, Vx` (R132; log 19). -/
def execLdFVx (x : Reg) (s : State) : Result := s.withGlyph x fun d => .next (s.writeI (glyphAddr d))

/-- `LD B, Vx` (R133). -/
def execLdBVx (x : Reg) (s : State) : Result :=
  s.withDataRange 3 (.next (s.storeBytes (s.dataAddr 0) (bcdDigits (s.readV x))))

/-- `LD [I], Vx` (R134). -/
def execLdMemVx (x : Reg) (s : State) : Result :=
  s.withDataRange (x.val + 1) (.next (s.storeBytes (s.dataAddr 0) (s.regsThrough x)))

/-- `LD Vx, [I]` (R135). -/
def execLdVxMem (x : Reg) (s : State) : Result := s.withDataRange (x.val + 1) (.next (s.writeRegs (s.regsLoaded x)))

end Sys2Proof.Machine
end

