-- ==== Sys2Proof/Machine/KeypadTimers.lean ====
section
/-! DEFINITION. The meanings of the keypad and timer instructions (44_keypad_timers.md). -/

namespace Sys2Proof.Machine

/-- `SKP Vx` (R150; log 19). -/
def execSkp (x : Reg) (s : State) : Result := s.withKey x fun k => skipIf (s.readKey k) s

/-- `SKNP Vx` (R151; log 19). -/
def execSknp (x : Reg) (s : State) : Result := s.withKey x fun k => skipIf (!s.readKey k) s

/-- `LD Vx, K`: the least pressed key, or back to `pc0` so that this instruction runs again (R152). -/
def execLdVxK (x : Reg) (s : State) : Result :=
  match s.lowestKey with
  | some k => .next (s.writeV x (BitVec.ofNat 8 k.val))
  | none => .next (s.writePc (s.pc - 2))

/-- `LD Vx, DT` (R153). -/
def execLdVxDT (x : Reg) (s : State) : Result := .next (s.writeV x s.dt)

/-- `LD DT, Vx` (R154). -/
def execLdDTVx (x : Reg) (s : State) : Result := .next (s.writeDt (s.readV x))

/-- `LD ST, Vx` (R155). -/
def execLdSTVx (x : Reg) (s : State) : Result := .next (s.writeSt (s.readV x))

end Sys2Proof.Machine
end

