-- ==== Sys2Proof/Machine/Step.lean ====
section
/-! DEFINITION. One step: fetch, decode, execute, in this order (40_control_flow.md R90). -/

namespace Sys2Proof.Machine

/-- One fetch, decode and execute. A fetch fault carries `PC` (R53, R166); a decode failure the opcode (R81, R163); the
instruction runs on the state after the fetch (R10). -/
def step (s : State) : Host.Outcome State Fault Refusal :=
  match s.fetchWord with
  | none => raise (.memoryOutOfRange .fetch s.pc.toNat)
  | some op =>
    match decode op with
    | .error _ => raise (.decodeFailure op)
    | .ok i => exec i s.advance

/-- `s` with the word that spec/opcode_table.json numbers `nbits`, `w` stored at `PC`, high byte first, where `step` fetches it
(R52, R71; log 7). -/
def State.withFetchWord (s : State) (nbits w : Nat) : State :=
  s.storeBytes s.pc.toNat [highByte (BitVec.ofNat 16 (w % 2 ^ nbits)), lowByte (BitVec.ofNat 16 (w % 2 ^ nbits))]

end Sys2Proof.Machine
end

