-- ==== Sys2Proof/Machine/HostOps.lean ====
section
/-! DEFINITION. The six host operations, the whole interface of the block, each one atomic transition (60_exceptions.md R178). -/

namespace Sys2Proof.Machine

/-! ### construct: reset with a program image (70_reset_and_hazards.md R190, R191, R193) -/

/-- Why `construct` makes no machine. -/
inductive ConstructError where
  /-- `ImageTooLarge(L)`: the image is longer than `MAX_IMAGE` bytes (R191; log 21). -/
  | imageTooLarge (length : Nat)
  deriving DecidableEq, Repr

/-- Reset with a program image: the image is copied from `PROG_BASE` up, and all else is as `State.reset` has it. -/
def construct (program : List Byte) : Except ConstructError State :=
  if program.length > Config.maxImage then .error (.imageTooLarge program.length)
  else .ok (State.reset.storeBytes Config.progBase program)

/-! ### The timers, keypad, display and sound (R171 to R174) -/

/-- One down-count, floored at 0 (R171). -/
def countDown (b : Byte) : Byte := if b.toNat > 0 then b - 1 else b

/-- `tick` (R171). -/
def tick (s : State) : State := (s.writeDt (countDown s.dt)).writeSt (countDown s.st)

/-- `set_keypad(snapshot)` (R172). -/
def setKeypad (pressed : Keypad) (s : State) : State := s.writeKeys pressed

/-- `get_display` (R173). -/
def getDisplay (s : State) : Display := s.pix

/-- `is_playing_sound` (R174). -/
def isPlayingSound (s : State) : Bool := s.st != 0

/-! ### step with its entropy draw and the state it leaves (R90, R160, R161) -/

/-- The result of a `step`: `OK`, or exactly one fault (R160). -/
inductive StepReply where
  | ok
  | fault (f : Fault)
  /-- No meaning for the instruction: the model's own, and raised by no instruction. -/
  | refused (r : Refusal)
  deriving DecidableEq, Repr

/-- The number of a step's result at a result port (R160); a refusal has none. -/
def StepReply.code : StepReply → Option Nat
  | .ok => some 0
  | .fault f => some f.code
  | .refused _ => none

/-- `step(d)`: the draw `d` is supplied for this step and ignored by every instruction but `RND` (R39, R90); the state left by a
fault is that of R161, and the core keeps no memory of it (R170). -/
def hostStep (d : Byte) (s : State) : State × StepReply :=
  match step (s.supply [d]) with
  | .next t => (t.supply s.entropyIn, .ok)
  | .fault f => (s.afterFault f, .fault f)
  | .refused r => (s, .refused r)

/-! ### Any sequence of operations on one machine (R12, R179) -/

/-- The operations on a machine that exists; `construct` makes another one (R178; log 8). -/
inductive HostOp where
  | step (draw : Byte)
  | tick
  | setKeypad (pressed : Keypad)
  | getDisplay
  | isPlayingSound
  deriving DecidableEq, Repr

/-- What an operation returns to the host, all the host observes (10_state.md R37; R178). -/
inductive HostReply where
  | nothing
  | step (r : StepReply)
  | display (d : Display)
  | sound (on : Bool)
  deriving DecidableEq, Repr

/-- One operation: the state it leaves and what it returns (R178). -/
def applyOp (s : State) : HostOp → State × HostReply
  | .step d => ((hostStep d s).1, .step (hostStep d s).2)
  | .tick => (tick s, .nothing)
  | .setKeypad pressed => (setKeypad pressed s, .nothing)
  | .getDisplay => (s, .display (getDisplay s))
  | .isPlayingSound => (s, .sound (isPlayingSound s))

/-- The state after a sequence of operations, whatever they return: the host may go on after a fault (R170, R179). -/
def runOps (s : State) : List HostOp → State
  | [] => s
  | op :: rest => runOps (applyOp s op).1 rest

/-- What the host observes of a sequence of operations (R37). -/
def observe (s : State) : List HostOp → List HostReply
  | [] => []
  | op :: rest => (applyOp s op).2 :: observe (applyOp s op).1 rest

end Sys2Proof.Machine
end

