-- ==== Sys2Proof/Safety.lean ====
section
/-! DEFINITION. The words statements are made of: what a state keeps, what an instruction may write, when it faults, and the
invariant of reachable states. Each is written from the spec's tables, not from the meanings. -/

namespace Sys2Proof.Machine

/-! ### What changes and what does not (10_state.md R34) -/

/-- The pieces of state, as the access summary divides them (R34). -/
inductive Part where
  | regs | index | pc | callStack | delay | sound | display | keys | memory
  /-- The model's own entropy fields (log 1). -/
  | entropy
  deriving DecidableEq, Repr

/-- One piece of `t` is as it was in `s`; memory is compared byte by byte. -/
def Part.Same (s t : State) : Part → Prop
  | .regs => t.v = s.v
  | .index => t.i = s.i
  | .pc => t.pc = s.pc
  | .callStack => t.sp = s.sp ∧ t.stack = s.stack
  | .delay => t.dt = s.dt
  | .sound => t.st = s.st
  | .display => t.pix = s.pix
  | .keys => t.key = s.key
  | .memory => ∀ a, t.byteAt a = s.byteAt a
  | .entropy => t.entropyIn = s.entropyIn ∧ t.entropyCount = s.entropyCount

/-- Every piece of state but the listed ones is as it was. -/
def OnlyChanges (parts : List Part) (s t : State) : Prop := ∀ p, p ∉ parts → p.Same s t

/-- Two outcomes of one kind: related next states, the same fault, or the same refusal. -/
def SameOutcome (R : State → State → Prop) : Result → Result → Prop
  | .next t, .next t' => R t t'
  | .fault f, .fault f' => f = f'
  | .refused r, .refused r' => r = r'
  | .next _, .fault _ | .next _, .refused _ | .fault _, .next _ | .fault _, .refused _ | .refused _, .next _
  | .refused _, .fault _ => False

/-- The fault of a data access of `k` bytes at `I`, if its highest byte does not exist (R60, R166). -/
def State.dataFault (s : State) (k : Nat) : Option Fault :=
  if k ≠ 0 ∧ Config.memSize ≤ s.i.toNat + k - 1 then some (.memoryOutOfRange .data (s.i.toNat + k - 1)) else none

end Sys2Proof.Machine

namespace Sys2Proof

open Machine

/-- The pieces an instruction may write beyond the fetch's advance of `PC` (R34, R33, R24). -/
def Instr.mayWrite : Instr → List Part
  | .cls => [.display]
  | .ret | .call _ => [.pc, .callStack]
  | .sys _ => []
  | .jp _ | .jpV0 _ => [.pc]
  | .seImm _ _ | .sneImm _ _ | .seReg _ _ | .sneReg _ _ | .skp _ | .sknp _ => [.pc]
  | .ldImm _ _ | .addImm _ _ | .ldReg _ _ | .orReg _ _ | .andReg _ _ | .xorReg _ _ | .addReg _ _ | .sub _ _ | .shr _ _
  | .subn _ _ | .shl _ _ | .ldVxDT _ | .ldVxMem _ => [.regs]
  | .rnd _ _ => [.regs, .entropy]
  | .ldI _ | .addIVx _ | .ldFVx _ => [.index]
  | .drw _ _ _ => [.regs, .display]
  | .ldVxK _ => [.regs, .pc]
  | .ldDTVx _ => [.delay]
  | .ldSTVx _ => [.sound]
  | .ldBVx _ | .ldMemVx _ => [.memory]

/-- The registers an instruction may write: its destination, `VF` for the six flag writers (R35), and `V[0]` to `V[x]` for
`LD Vx, [I]` (R135). -/
def Instr.mayWriteReg (r : Reg) : Instr → Bool
  | .ldImm x _ | .addImm x _ | .ldReg x _ | .orReg x _ | .andReg x _ | .xorReg x _ | .rnd x _ | .ldVxDT x | .ldVxK x => r == x
  | .addReg x _ | .sub x _ | .shr x _ | .subn x _ | .shl x _ => r == x || r == vf
  | .drw _ _ _ => r == vf
  | .ldVxMem x => decide (r ≤ x)
  | .cls | .ret | .sys _ | .jp _ | .call _ | .seImm _ _ | .sneImm _ _ | .seReg _ _ | .sneReg _ _ | .ldI _ | .jpV0 _ | .skp _
  | .sknp _ | .ldDTVx _ | .ldSTVx _ | .addIVx _ | .ldFVx _ | .ldBVx _ | .ldMemVx _ => false

/-- The six instructions that write `VF` as a flag (R35). -/
def Instr.writesFlag : Instr → Bool
  | .addReg _ _ | .sub _ _ | .shr _ _ | .subn _ _ | .shl _ _ | .drw _ _ _ => true
  | .cls | .ret | .sys _ | .jp _ | .call _ | .seImm _ _ | .sneImm _ _ | .seReg _ _ | .sneReg _ _ | .ldImm _ _ | .addImm _ _
  | .ldReg _ _ | .orReg _ _ | .andReg _ _ | .xorReg _ _ | .rnd _ _ | .ldVxDT _ | .ldVxK _ | .ldVxMem _ | .ldI _ | .jpV0 _
  | .skp _ | .sknp _ | .ldDTVx _ | .ldSTVx _ | .addIVx _ | .ldFVx _ | .ldBVx _ | .ldMemVx _ => false

/-- The bytes from `I` up that an instruction stores to (R65, R133, R134). -/
def Instr.storedBytes : Instr → Nat
  | .ldBVx _ => 3
  | .ldMemVx x => x.val + 1
  | .cls | .ret | .sys _ | .jp _ | .call _ | .seImm _ _ | .sneImm _ _ | .seReg _ _ | .sneReg _ _ | .ldImm _ _ | .addImm _ _
  | .ldReg _ _ | .orReg _ _ | .andReg _ _ | .xorReg _ _ | .addReg _ _ | .sub _ _ | .shr _ _ | .subn _ _ | .shl _ _ | .rnd _ _
  | .drw _ _ _ | .skp _ | .sknp _ | .ldVxDT _ | .ldVxK _ | .ldDTVx _ | .ldSTVx _ | .addIVx _ | .ldFVx _ | .ldVxMem _ | .ldI _
  | .jpV0 _ => 0

/-! ### When an instruction faults (60_exceptions.md R160, R164 to R167) -/

/-- The one fault an instruction has in a state, or none: each instruction has at most one fault condition (R168). -/
def Instr.faultIn (s : State) : Instr → Option Fault
  | .sys nnn => some (.decodeFailure (packNNN 0x0 nnn))
  | .call _ => if s.sp = 15 then some (.stackOverflow 15) else none
  | .ret => if s.sp = 0 then some .stackUnderflow else none
  | .drw _ _ n => s.dataFault n.toNat
  | .ldBVx _ => s.dataFault 3
  | .ldMemVx x | .ldVxMem x => s.dataFault (x.val + 1)
  | .skp x | .sknp x => if (s.readV x).toNat > 15 then some (.keyIndexOutOfRange (s.readV x)) else none
  | .ldFVx x => if (s.readV x).toNat > 15 then some (.glyphIndexOutOfRange (s.readV x)) else none
  | .cls | .jp _ | .seImm _ _ | .sneImm _ _ | .seReg _ _ | .sneReg _ _ | .ldImm _ _ | .addImm _ _ | .ldReg _ _ | .orReg _ _
  | .andReg _ _ | .xorReg _ _ | .addReg _ _ | .sub _ _ | .shr _ _ | .subn _ _ | .shl _ _ | .rnd _ _ | .ldVxDT _ | .ldVxK _
  | .ldDTVx _ | .ldSTVx _ | .addIVx _ | .ldI _ | .jpV0 _ => none

/-! ### Where `PC` goes (10_state.md R24) -/

/-- `PC` after an instruction that completes, as a function of the state after the fetch (R24): a jump's target, a return's
slot, two more for a skip whose condition holds, two back for a wait, else the post-fetch value. -/
def Instr.pcAfter (s : State) : Instr → Word
  | .jp nnn | .call nnn => nnn.zeroExtend 16
  | .ret => s.readStack s.sp
  | .jpV0 nnn => nnn.zeroExtend 16 + (s.readV 0).zeroExtend 16
  | .seImm x kk => if s.readV x = kk then s.pc + 2 else s.pc
  | .sneImm x kk => if s.readV x ≠ kk then s.pc + 2 else s.pc
  | .seReg x y => if s.readV x = s.readV y then s.pc + 2 else s.pc
  | .sneReg x y => if s.readV x ≠ s.readV y then s.pc + 2 else s.pc
  | .skp x => if ∃ k : Fin 16, k.val = (s.readV x).toNat ∧ s.readKey k = true then s.pc + 2 else s.pc
  | .sknp x => if ∃ k : Fin 16, k.val = (s.readV x).toNat ∧ s.readKey k = false then s.pc + 2 else s.pc
  | .ldVxK _ => if ∃ k : Fin 16, s.readKey k = true then s.pc else s.pc - 2
  | .cls | .sys _ | .ldImm _ _ | .addImm _ _ | .ldReg _ _ | .orReg _ _ | .andReg _ _ | .xorReg _ _ | .addReg _ _ | .sub _ _
  | .shr _ _ | .subn _ _ | .shl _ _ | .rnd _ _ | .drw _ _ _ | .ldI _ | .ldVxDT _ | .ldDTVx _ | .ldSTVx _ | .addIVx _
  | .ldFVx _ | .ldBVx _ | .ldMemVx _ | .ldVxMem _ => s.pc

end Sys2Proof

namespace Sys2Proof.Machine

/-! ### Sprites as a whole (43_display.md R141, R142) -/

/-- The sprite bit that lands on cell (`x`, `y`) when `n` rows at `I` are drawn from origin (`ox`, `oy`): the cell is `col`
columns right and `row` rows down of the origin, going round the edges; at most one bit lands on a cell (R142). -/
def State.spriteCovers (s : State) (ox oy n : Nat) (x : Fin 64) (y : Fin 32) : Bool :=
  let col := (x.val + 64 - ox % 64) % 64
  let row := (y.val + 32 - oy % 32) % 32
  decide (col < 8) && decide (row < n) && (s.byteAt (s.i.toNat + row)).getLsbD (7 - col)

/-- The opcode at `PC`, high byte first, where both its bytes exist (20_memory.md R52, R53). -/
def State.opcodeAt (s : State) (op : Word) : Prop :=
  s.pc.toNat + 1 < Config.memSize ∧ op = wordOfBytes (s.byteAt s.pc.toNat) (s.byteAt (s.pc.toNat + 1))

/-! ### Reachable states (10_state.md R40) -/

/-- The invariant of reachable states: memory is canonical and holds no cell outside `MEM_SIZE` (R32, R40, log 3); slot 0 of the
call stack is 0 for ever (R27, R40); a stacked address is at most `MEM_SIZE`, where a fetch can end; and `PC` is at most
0x10FE (R25). The widths R40 lists are the types of the fields. -/
structure State.Inv (s : State) : Prop where
  memory : s.mem.wf = true
  slotZero : s.readStack 0 = 0
  stacked : ∀ k, (s.readStack k).toNat ≤ Config.memSize
  counter : s.pc.toNat ≤ 0x10FE

/-- The states the host can bring about: a machine it constructs, after any sequence of operations (R12, R40, R179). -/
def State.Reachable (s : State) : Prop := ∃ image s₀ ops, construct image = .ok s₀ ∧ s = runOps s₀ ops

end Sys2Proof.Machine
end

