-- ==== Sys2Proof/Certificates/Slice0/Obligations.lean ====
section
/-! DEFINITION. The statements for the provers. `exec` runs on the state after the fetch, whose `PC` is `pc0 + 2` (00_scope.md R10).
`hostStep` supplies the draw and gives the state a fault leaves in this model's form (log 1, log 4).
Each docstring names the rule or the sentence of the spec it formalises; where a clause rests on a choice the spec marks as its
own, or on one of this model's, the docstring names it. -/

open Sys2Proof Sys2Proof.Machine

/-! ### Encoding -/

/-- Words written out from the patterns of 30_encoding.md R75 to R79, one or more of each of the sixteen families, in the order of
the families, and two failing ones. The bit patterns are the spec's, from general knowledge (93_implementation_defined.md G1;
log 27); that 0000 fails is the spec's decision D5 (log 15). -/
def Obligations.OpcodeWordsDecode : Prop :=
  decode 0x00E0 = .ok .cls ∧ decode 0x00EE = .ok .ret ∧ decode 0x1234 = .ok (.jp 0x234) ∧
  decode 0x2301 = .ok (.call 0x301) ∧ decode 0x332A = .ok (.seImm 3 0x2A) ∧ decode 0x432A = .ok (.sneImm 3 0x2A) ∧
  decode 0x5AB0 = .ok (.seReg 10 11) ∧ decode 0x6A2F = .ok (.ldImm 10 0x2F) ∧ decode 0x7120 = .ok (.addImm 1 0x20) ∧
  decode 0x8AB7 = .ok (.subn 10 11) ∧ decode 0x9120 = .ok (.sneReg 1 2) ∧ decode 0xA2F0 = .ok (.ldI 0x2F0) ∧
  decode 0xB300 = .ok (.jpV0 0x300) ∧ decode 0xC30F = .ok (.rnd 3 0x0F) ∧ decode 0xD125 = .ok (.drw 1 2 5) ∧
  decode 0xE5A1 = .ok (.sknp 5) ∧ decode 0xF255 = .ok (.ldMemVx 2) ∧ decodeVerdict 0x5121 = .error (.noMatch 0x5121) ∧
  decodeVerdict 0x0000 = .error (.noMatch 0x0000)

/-- Decoding an encoded well-formed instruction gives it back, from the word and from its two bytes, high byte first, with every
operand at every value its field admits (R71 to R79; patterns G1, log 27). -/
def Obligations.DecodeOfEncodeIsSame : Prop :=
  ∀ (i : Instr) (rest : List Byte), i.wellFormed = true →
    decode (encode i) = .ok i ∧ decodeBytes (highByte (encode i) :: lowByte (encode i) :: rest) = .ok (i, rest)

/-- A word that decodes is the encoding of what it decodes to, a well-formed instruction (R71 to R79; patterns G1, log 27). -/
def Obligations.EncodeOfDecodeIsSame : Prop :=
  ∀ (op : Word) (i : Instr), decode op = .ok i → i.wellFormed = true ∧ encode i = op

/-- A word with the fixed bits of a row of the opcode table decodes to that row, so it matches no other; `SYS` leaves out `00E0`
and `00EE` (R86, which the spec derives from R75 to R79; patterns G1, log 27). -/
def Obligations.EveryWordMatchesAtMostOneRow : Prop :=
  (∀ (op : Word) (j : Instr), op &&& j.format.mask = j.pattern →
    (j.pattern = 0 → op ≠ 0x00E0 ∧ op ≠ 0x00EE) → ∃ i, decode op = .ok i ∧ i.pattern = j.pattern) ∧
  (∀ (op : Word) (i : Instr), decode op = .ok i → op &&& i.format.mask = i.pattern)

/-- The illegal encodings, family by family, and that every other opcode is an instruction (R82, which the spec derives from R75
to R79; patterns G1, log 27; family 0 by the spec's decisions D5 and D6, log 15). -/
def Obligations.IllegalEncodingsAreExactlyThese : Prop :=
  ∀ op : Word,
    (decodeVerdict op = .error (.noMatch op) ↔
      (op.toNat / 4096 = 0x0 ∧ op ≠ 0x00E0 ∧ op ≠ 0x00EE) ∨
      (op.toNat / 4096 = 0x5 ∧ op.toNat % 16 ≠ 0) ∨
      (op.toNat / 4096 = 0x8 ∧ op.toNat % 16 ∈ [0x8, 0x9, 0xA, 0xB, 0xC, 0xD, 0xF]) ∨
      (op.toNat / 4096 = 0x9 ∧ op.toNat % 16 ≠ 0) ∨
      (op.toNat / 4096 = 0xE ∧ op.toNat % 256 ∉ [0x9E, 0xA1]) ∨
      (op.toNat / 4096 = 0xF ∧ op.toNat % 256 ∉ [0x07, 0x0A, 0x15, 0x18, 0x1E, 0x29, 0x33, 0x55, 0x65])) ∧
    (decodeVerdict op = .error (.noMatch op) ∨ ∃ i, decodeVerdict op = .ok i)

/-! ### The step -/

/-- When the two bytes at `PC` decode to an instruction, the step is that instruction's execution on the state with `PC` moved
past it (40_control_flow.md, section 1). -/
def Obligations.StepRunsDecodedInstruction : Prop :=
  ∀ (s : State) (i : Instr), s.pc.toNat + 1 < Config.memSize →
    decode (wordOfBytes (s.byteAt s.pc.toNat) (s.byteAt (s.pc.toNat + 1))) = .ok i →
    step s = exec i (s.writePc (s.pc + 2))

/-- `step(d)`: the fetch faults with all as it was, or the decoder fails and the fetch's advance of `PC` stays, or the instruction
executes with the draw `d`, and its fault is the result or the step returns `OK` (40_control_flow.md section 1, "The step"). Not the
rule's own words: the draw as `supply [d]`, and the list of supplied bytes put back afterwards, are this model's form (log 1); a
fault joined to the state it leaves is `hostStep`'s form (log 4); when the fetch faults is the spec's decision D4 (log 14); what a
faulting step leaves is its decision D2 (log 12). -/
def Obligations.StepIsFetchDecodeExecute : Prop :=
  ∀ (d : Byte) (s : State),
    (Config.memSize ≤ s.pc.toNat + 1 → hostStep d s = (s, .fault (.memoryOutOfRange .fetch s.pc.toNat))) ∧
    (∀ op, s.opcodeAt op → decodeVerdict op = .error (.noMatch op) →
      hostStep d s = (s.writePc (s.pc + 2), .fault (.decodeFailure op))) ∧
    (∀ op i, s.opcodeAt op → decodeVerdict op = .ok i →
      (∀ t, exec i ((s.writePc (s.pc + 2)).supply [d]) = .next t → hostStep d s = (t.supply s.entropyIn, .ok)) ∧
      (∀ f, exec i ((s.writePc (s.pc + 2)).supply [d]) = .fault f → hostStep d s = (s.writePc (s.pc + 2), .fault f)) ∧
      ((∃ t, exec i ((s.writePc (s.pc + 2)).supply [d]) = .next t) ∨
        ∃ f, exec i ((s.writePc (s.pc + 2)).supply [d]) = .fault f))

/-- A decode failure is reported with the opcode, depends on the opcode alone, and leaves `PC` past the bad word (60_exceptions.md
section 1, "Decode failure"). That nothing but `PC` changes is the spec's decision D2 (section 1, "What a faulting step leaves";
log 12); the fault joined to the state it leaves is `hostStep`'s form (log 4). -/
def Obligations.DecodeFailureCarriesOpcode : Prop :=
  ∀ (d : Byte) (s : State) (op : Word), s.opcodeAt op → decodeVerdict op = .error (.noMatch op) →
    step s = .fault (.decodeFailure op) ∧ (hostStep d s).2 = .fault (.decodeFailure op) ∧
    (hostStep d s).1.pc = s.pc + 2 ∧ OnlyChanges [.pc] s (hostStep d s).1

/-- `SYS nnn` is a decode failure on every path (40_control_flow.md, section 2, `SYS`: "raise DecodeFailure(op)"; the spec's
decision D5, log 15). -/
def Obligations.SystemCallIsDecodeFailure : Prop :=
  (∀ (nnn : Addr12) (s : State), exec (.sys nnn) s = .fault (.decodeFailure (encode (.sys nnn)))) ∧
  (∀ (nnn : Addr12) (s : State), nnn ≠ 0x0E0 → nnn ≠ 0x0EE → s.opcodeAt (encode (.sys nnn)) →
    step s = .fault (.decodeFailure (encode (.sys nnn))))

/-- What a faulting step leaves: a fetch fault nothing changed, any other fault `PC = pc0 + 2` and nothing else changed
(60_exceptions.md R161; the spec's decision D2, log 12). -/
def Obligations.FaultLeavesAllButPc : Prop :=
  ∀ (d : Byte) (s : State) (f : Fault), (hostStep d s).2 = .fault f →
    ((∃ a, f = .memoryOutOfRange .fetch a) → (hostStep d s).1 = s) ∧
    ((∀ a, f ≠ .memoryOutOfRange .fetch a) →
      (hostStep d s).1.pc = s.pc + 2 ∧ OnlyChanges [.pc] s (hostStep d s).1)

/-- After a fetch fault `PC` is unchanged, so every further step raises the same fault (60_exceptions.md, section 1, "After a
fault"; the fetch check is the spec's decision D4, log 14). -/
def Obligations.FetchFaultRepeats : Prop :=
  ∀ (draws : List Byte) (s : State), Config.memSize ≤ s.pc.toNat + 1 →
    observe s (draws.map .step) = draws.map (fun _ => .step (.fault (.memoryOutOfRange .fetch s.pc.toNat))) ∧
    runOps s (draws.map .step) = s

/-! ### Control flow (40_control_flow.md) -/

/-- `JP nnn` and `JP V0, nnn`: where `PC` goes, and that nothing else changes (section 2; the operations and patterns are from
general knowledge, G2; `V[0]` and the uncut sum are the spec's decision D10, log 18). -/
def Obligations.JumpsReplacePc : Prop :=
  (∀ (nnn : Addr12) (s : State), ∃ t, exec (.jp nnn) s = .next t ∧ t.pc.toNat = nnn.toNat ∧ OnlyChanges [.pc] s t) ∧
  (∀ (nnn : Addr12) (s : State), ∃ t, exec (.jpV0 nnn) s = .next t ∧ t.pc.toNat = nnn.toNat + (s.readV 0).toNat ∧
    OnlyChanges [.pc] s t)

/-- A jump to its own address leaves the whole state as it was and returns `OK` (00_scope.md section 5, "End of a run";
40_control_flow.md section 2, `JP`; from general knowledge, G6; log 29). -/
def Obligations.JumpToSelfIsFixedPoint : Prop :=
  ∀ (d : Byte) (s : State) (nnn : Addr12), nnn.toNat = s.pc.toNat → s.opcodeAt (encode (.jp nnn)) →
    hostStep d s = (s, .ok)

/-- `CALL nnn`: with a free slot, slot `SP + 1` receives the post-fetch `PC`, then the jump; with `SP` = 15, the fault (section 2,
`CALL`; the fault and the depth are the spec's decision D3, log 13). -/
def Obligations.CallPushesReturnAddress : Prop :=
  (∀ (nnn : Addr12) (s : State), s.sp ≠ 15 → ∃ t, exec (.call nnn) s = .next t ∧ t.sp.val = s.sp.val + 1 ∧
    (∀ k, t.readStack k = if k.val = s.sp.val + 1 then s.pc else s.readStack k) ∧ t.pc.toNat = nnn.toNat ∧
    OnlyChanges [.pc, .callStack] s t) ∧
  (∀ (nnn : Addr12) (s : State), s.sp = 15 → exec (.call nnn) s = .fault (.stackOverflow 15))

/-- `RET`: `PC` from the slot `SP`, then `SP` one less and every slot as it was; with `SP` = 0, the fault (section 2, `RET`; the
fault is the spec's decision D3, log 13). -/
def Obligations.ReturnPopsSlot : Prop :=
  (∀ s : State, s.sp ≠ 0 → ∃ t, exec .ret s = .next t ∧ t.pc = s.readStack s.sp ∧ t.sp.val + 1 = s.sp.val ∧
    (∀ k, t.readStack k = s.readStack k) ∧ OnlyChanges [.pc, .callStack] s t) ∧
  (∀ s : State, s.sp = 0 → exec .ret s = .fault .stackUnderflow)

/-- After a `CALL` that completes, whatever moved `PC` in between, a `RET` comes back to the instruction after the `CALL`, with the
stack pointer as before and every slot but the pushed one as before (sections 2 and 3). -/
def Obligations.ReturnUndoesCall : Prop :=
  ∀ (nnn : Addr12) (s t : State) (w : Word), exec (.call nnn) s = .next t →
    ∃ u, exec .ret (t.writePc w) = .next u ∧ u.pc = s.pc ∧ u.sp = s.sp ∧
      (∀ k, k.val ≠ s.sp.val + 1 → u.readStack k = s.readStack k) ∧ OnlyChanges [.callStack] s u

/-- `SE Vx, kk` and `SNE Vx, kk`: two more when the condition holds, else nothing; only `PC` changes (section 2; conditions and
patterns from general knowledge, G2). -/
def Obligations.ImmediateSkips : Prop :=
  ∀ (x : Reg) (kk : Byte) (s : State),
    (∃ t, exec (.seImm x kk) s = .next t ∧ t.pc = (if s.readV x = kk then s.pc + 2 else s.pc) ∧ OnlyChanges [.pc] s t) ∧
    (∃ t, exec (.sneImm x kk) s = .next t ∧ t.pc = (if s.readV x = kk then s.pc else s.pc + 2) ∧ OnlyChanges [.pc] s t)

/-- `SE Vx, Vy` and `SNE Vx, Vy` (section 2; conditions and patterns from general knowledge, G2). -/
def Obligations.RegisterSkips : Prop :=
  ∀ (x y : Reg) (s : State),
    (∃ t, exec (.seReg x y) s = .next t ∧ t.pc = (if s.readV x = s.readV y then s.pc + 2 else s.pc) ∧
      OnlyChanges [.pc] s t) ∧
    (∃ t, exec (.sneReg x y) s = .next t ∧ t.pc = (if s.readV x = s.readV y then s.pc else s.pc + 2) ∧
      OnlyChanges [.pc] s t)

/-- Where `PC` stands after any step that completes (10_state.md R24). `Instr.pcAfter` is R24's table, over the state after the
fetch. -/
def Obligations.PcAfterEveryStep : Prop :=
  ∀ s t : State, step s = .next t → ∃ op i, s.opcodeAt op ∧ decode op = .ok i ∧
    t.pc = i.pcAfter (s.writePc (s.pc + 2))

/-- `PC` and the stacked addresses stay even as long as no jump or call goes to an odd address (10_state.md section 3, "Alignment
and wrap", derived there; the core does not check it, decision D13, log 20). -/
def Obligations.PcStaysEven : Prop :=
  ∀ s t : State, step s = .next t → s.pc.toNat % 2 = 0 → (∀ k, (s.readStack k).toNat % 2 = 0) →
    (∀ nnn, s.opcodeAt (encode (.jp nnn)) ∨ s.opcodeAt (encode (.call nnn)) → nnn.toNat % 2 = 0) →
    (∀ nnn, s.opcodeAt (encode (.jpV0 nnn)) → (nnn.toNat + (s.readV 0).toNat) % 2 = 0) →
    t.pc.toNat % 2 = 0 ∧ ∀ k, (t.readStack k).toNat % 2 = 0

/-! ### Load, arithmetic, logic, shift, random (41_alu.md) -/

/-- `LD Vx, kk`, `ADD Vx, kk` and `LD Vx, Vy`: the destination's value; no other register, `VF` not as a flag (sections 2 and 3;
operations and patterns from general knowledge, G2; `VF` left alone is the spec's decision D8, log 17). -/
def Obligations.ImmediateAndRegisterLoads : Prop :=
  (∀ (x : Reg) (kk : Byte) (s : State), ∃ t, exec (.ldImm x kk) s = .next t ∧ t.readV x = kk ∧
    (∀ r, r ≠ x → t.readV r = s.readV r) ∧ OnlyChanges [.regs] s t) ∧
  (∀ (x : Reg) (kk : Byte) (s : State), ∃ t, exec (.addImm x kk) s = .next t ∧
    (t.readV x).toNat = ((s.readV x).toNat + kk.toNat) % 256 ∧
    (∀ r, r ≠ x → t.readV r = s.readV r) ∧ OnlyChanges [.regs] s t) ∧
  (∀ (x y : Reg) (s : State), ∃ t, exec (.ldReg x y) s = .next t ∧ t.readV x = s.readV y ∧
    (∀ r, r ≠ x → t.readV r = s.readV r) ∧ OnlyChanges [.regs] s t)

/-- `OR`, `AND`, `XOR`, bit by bit; no other register, `VF` not as a flag (section 3; operations and patterns from general
knowledge, G2; `VF` left alone is the spec's decision D8, log 17). -/
def Obligations.LogicBitByBit : Prop :=
  ∀ (x y : Reg) (s : State),
    (∃ t, exec (.orReg x y) s = .next t ∧
      (∀ k, k < 8 → (t.readV x).getLsbD k = ((s.readV x).getLsbD k || (s.readV y).getLsbD k)) ∧
      (∀ r, r ≠ x → t.readV r = s.readV r) ∧ OnlyChanges [.regs] s t) ∧
    (∃ t, exec (.andReg x y) s = .next t ∧
      (∀ k, k < 8 → (t.readV x).getLsbD k = ((s.readV x).getLsbD k && (s.readV y).getLsbD k)) ∧
      (∀ r, r ≠ x → t.readV r = s.readV r) ∧ OnlyChanges [.regs] s t) ∧
    (∃ t, exec (.xorReg x y) s = .next t ∧
      (∀ k, k < 8 → (t.readV x).getLsbD k = ((s.readV x).getLsbD k != (s.readV y).getLsbD k)) ∧
      (∀ r, r ≠ x → t.readV r = s.readV r) ∧ OnlyChanges [.regs] s t)

/-- `ADD Vx, Vy`: the sum modulo 256 in the destination, and the carry in `VF`, written last: it is what `VF` ends with where `VF`
is the destination (R117). -/
def Obligations.AddGivesSumAndCarry : Prop :=
  ∀ (x y : Reg) (s : State), ∃ t, exec (.addReg x y) s = .next t ∧
    (x ≠ 15 → (t.readV x).toNat = ((s.readV x).toNat + (s.readV y).toNat) % 256) ∧
    t.readV 15 = (if (s.readV x).toNat + (s.readV y).toNat > 255 then 1 else 0) ∧
    (∀ r, r ≠ x → r ≠ 15 → t.readV r = s.readV r) ∧ OnlyChanges [.regs] s t

/-- `SUB Vx, Vy`: the difference modulo 256 in the destination, and 1 in `VF`, written last, exactly when the minuend is strictly
greater (R118). -/
def Obligations.SubGivesDifferenceAndGreater : Prop :=
  ∀ (x y : Reg) (s : State), ∃ t, exec (.sub x y) s = .next t ∧
    (x ≠ 15 → ((t.readV x).toNat : Int) = ((s.readV x).toNat - (s.readV y).toNat : Int) % 256) ∧
    t.readV 15 = (if (s.readV x).toNat > (s.readV y).toNat then 1 else 0) ∧
    (∀ r, r ≠ x → r ≠ 15 → t.readV r = s.readV r) ∧ OnlyChanges [.regs] s t

/-- `SUBN Vx, Vy`: `V[y] - V[x]`, the minuend being `V[y]`, and the flag written last (section 3, `SUBN`; the operation and pattern
are from general knowledge, G2). -/
def Obligations.SubnGivesDifferenceAndGreater : Prop :=
  ∀ (x y : Reg) (s : State), ∃ t, exec (.subn x y) s = .next t ∧
    (x ≠ 15 → ((t.readV x).toNat : Int) = ((s.readV y).toNat - (s.readV x).toNat : Int) % 256) ∧
    t.readV 15 = (if (s.readV y).toNat > (s.readV x).toNat then 1 else 0) ∧
    (∀ r, r ≠ x → r ≠ 15 → t.readV r = s.readV r) ∧ OnlyChanges [.regs] s t

/-- `SHR Vx` and `SHL Vx`: every bit of the result in the destination, and the bit shifted out in `VF`, written last (R119, R121).
The state left is given for every `y` without `V[y]`: `V[y]` is neither read nor written. -/
def Obligations.ShiftsMoveEveryBit : Prop :=
  ∀ (x y : Reg) (s : State),
    (∃ t, exec (.shr x y) s = .next t ∧
      (x ≠ 15 → ∀ k, k < 8 → (t.readV x).getLsbD k = (decide (k < 7) && (s.readV x).getLsbD (k + 1))) ∧
      t.readV 15 = (if (s.readV x).getLsbD 0 = true then 1 else 0) ∧
      (∀ r, r ≠ x → r ≠ 15 → t.readV r = s.readV r) ∧ OnlyChanges [.regs] s t) ∧
    (∃ t, exec (.shl x y) s = .next t ∧
      (x ≠ 15 → ∀ k, k < 8 → (t.readV x).getLsbD k = (decide (0 < k) && (s.readV x).getLsbD (k - 1))) ∧
      t.readV 15 = (if (s.readV x).getLsbD 7 = true then 1 else 0) ∧
      (∀ r, r ≠ x → r ≠ 15 → t.readV r = s.readV r) ∧ OnlyChanges [.regs] s t)

/-- The `y` field of `SHR` and `SHL` is ignored by execution, all its values decode and behave alike (30_encoding.md section 5,
"Ignored bits"). That the decoded shift keeps `y`, so that no two words, shifts included, decode to one instruction, is this model's
(log 10); that the words of `SYS` decode to its row is this model's too (log 5). -/
def Obligations.ShiftsIgnoreSecondRegister : Prop :=
  (∀ (x y y' : Reg) (s : State), exec (.shr x y) s = exec (.shr x y') s ∧ exec (.shl x y) s = exec (.shl x y') s) ∧
  (∀ x y : Reg, decode (encode (.shr x y)) = .ok (.shr x y) ∧ decode (encode (.shl x y)) = .ok (.shl x y)) ∧
  (∀ (op op' : Word) (i : Instr), decode op = .ok i → decode op' = .ok i → op = op')

/-- `RND Vx, kk` under `step(d)`: the destination is the draw AND the mask, for every draw, and nothing else but `PC` changes;
`VF` is not touched as a flag (41_alu.md section 4). The draw as an argument of `hostStep`, and the list of supplied bytes put back
afterwards, are this model's form (log 1); that the draw is free is the spec's decision D18. -/
def Obligations.RandomIsDrawUnderMask : Prop :=
  ∀ (d : Byte) (s : State) (op : Word) (x : Reg) (kk : Byte), s.opcodeAt op → decode op = .ok (.rnd x kk) →
    (hostStep d s).2 = .ok ∧ (hostStep d s).1.readV x = d &&& kk ∧
    (∀ r, r ≠ x → (hostStep d s).1.readV r = s.readV r) ∧ (hostStep d s).1.pc = s.pc + 2 ∧
    OnlyChanges [.regs, .pc] s (hostStep d s).1

/-- `RND Vx, kk` completes in every state: with bytes supplied it takes the first and leaves the rest; with none it takes a free
value and counts it. The two forms of the draw are this model's, log 1; the statement holds whatever the free values are. -/
def Obligations.RandomConsumesOneDraw : Prop :=
  (∀ (x : Reg) (kk d : Byte) (rest : List Byte) (s : State), s.entropyIn = d :: rest →
    ∃ t, exec (.rnd x kk) s = .next t ∧ t.readV x = d &&& kk ∧ t.entropyIn = rest ∧ t.entropyCount = s.entropyCount ∧
      (∀ r, r ≠ x → t.readV r = s.readV r) ∧ OnlyChanges [.regs, .entropy] s t) ∧
  (∀ (x : Reg) (kk : Byte) (s : State), s.entropyIn = [] →
    ∃ t, exec (.rnd x kk) s = .next t ∧ t.readV x = Config.entropy s.entropyCount &&& kk ∧ t.entropyIn = [] ∧
      t.entropyCount = s.entropyCount + 1 ∧
      (∀ r, r ≠ x → t.readV r = s.readV r) ∧ OnlyChanges [.regs, .entropy] s t)

/-- Every instruction but `RND` ignores the entropy input: with other draws to come it does the same and leaves them untouched
(10_state.md section 14; the fields are this model's, log 1; the free draw is the spec's decision D18). -/
def Obligations.OnlyRandomReadsEntropy : Prop :=
  ∀ (i : Instr) (s : State) (bytes : List Byte) (n : Nat), (∀ x kk, i ≠ .rnd x kk) →
    SameOutcome (fun t t' => t' = { t with entropyIn := bytes, entropyCount := n }) (exec i s)
      (exec i { s with entropyIn := bytes, entropyCount := n })

/-! ### Index register and memory (42_index_memory.md, 20_memory.md) -/

/-- `LD I, nnn` and `ADD I, Vx`: `I` alone changes, the sum modulo 2^16 (section 2; operations and patterns from general
knowledge, G2; the width of the sum and `VF` left alone are the spec's decision D9, log 17). -/
def Obligations.IndexLoadAndAdd : Prop :=
  (∀ (nnn : Addr12) (s : State), ∃ t, exec (.ldI nnn) s = .next t ∧ t.i.toNat = nnn.toNat ∧ OnlyChanges [.index] s t) ∧
  (∀ (x : Reg) (s : State), ∃ t, exec (.addIVx x) s = .next t ∧ t.i.toNat = (s.i.toNat + (s.readV x).toNat) % 65536 ∧
    OnlyChanges [.index] s t)

/-- `LD F, Vx`: the address of the digit's glyph, or the fault of a digit above 15 (section 2, `LD F`; the operation is from
general knowledge, G2; the fault is the spec's decision D12, log 19). -/
def Obligations.GlyphAddressOrFault : Prop :=
  (∀ (x : Reg) (s : State), (s.readV x).toNat ≤ 15 → ∃ t, exec (.ldFVx x) s = .next t ∧
    t.i.toNat = 0x050 + 5 * (s.readV x).toNat ∧ OnlyChanges [.index] s t) ∧
  (∀ (x : Reg) (s : State), 15 < (s.readV x).toNat → exec (.ldFVx x) s = .fault (.glyphIndexOutOfRange (s.readV x)))

/-- `LD B, Vx` where its three bytes exist: the decimal digits, hundreds first, and no other byte (section 2, `LD B`; the pattern is
from general knowledge, G1). Canonical memory is the invariant of `StepKeepsInvariant`. -/
def Obligations.DecimalDigitsStored : Prop :=
  ∀ (x : Reg) (s : State), s.mem.wf = true → s.i.toNat + 2 < Config.memSize → ∃ t, exec (.ldBVx x) s = .next t ∧
    (t.byteAt s.i.toNat).toNat = (s.readV x).toNat / 100 ∧
    (t.byteAt (s.i.toNat + 1)).toNat = (s.readV x).toNat / 10 % 10 ∧
    (t.byteAt (s.i.toNat + 2)).toNat = (s.readV x).toNat % 10 ∧
    (∀ a, a < s.i.toNat ∨ s.i.toNat + 3 ≤ a → t.byteAt a = s.byteAt a) ∧ OnlyChanges [.memory] s t

/-- `LD [I], Vx` where its bytes exist: `V[r]` at `I + r` for `r` up to `x`, and no other byte; `I` as it was (section 2,
`LD [I]`; the pattern is from general knowledge, G1). -/
def Obligations.RegistersStored : Prop :=
  ∀ (x : Reg) (s : State), s.mem.wf = true → s.i.toNat + x.val < Config.memSize → ∃ t, exec (.ldMemVx x) s = .next t ∧
    (∀ r : Reg, r ≤ x → t.byteAt (s.i.toNat + r.val) = s.readV r) ∧
    (∀ a, a < s.i.toNat ∨ s.i.toNat + x.val + 1 ≤ a → t.byteAt a = s.byteAt a) ∧ OnlyChanges [.memory] s t

/-- `LD Vx, [I]` where its bytes exist: `MEM[I + r]` in `V[r]` for `r` up to `x`, the registers above as they were (section 2,
`LD Vx, [I]`; the pattern is from general knowledge, G1). -/
def Obligations.RegistersLoaded : Prop :=
  ∀ (x : Reg) (s : State), s.i.toNat + x.val < Config.memSize → ∃ t, exec (.ldVxMem x) s = .next t ∧
    (∀ r : Reg, r ≤ x → t.readV r = s.byteAt (s.i.toNat + r.val)) ∧
    (∀ r : Reg, x < r → t.readV r = s.readV r) ∧ OnlyChanges [.regs] s t

/-- The range check of the four instructions that access memory through `I`, over the integers, with the highest address of the
range in the fault (20_memory.md section 3, "Range check"; the spec's decision D4, log 14). -/
def Obligations.DataAccessOutsideMemoryFaults : Prop :=
  ∀ (s : State),
    (∀ x, Config.memSize ≤ s.i.toNat + 2 → exec (.ldBVx x) s = .fault (.memoryOutOfRange .data (s.i.toNat + 2))) ∧
    (∀ x : Reg, Config.memSize ≤ s.i.toNat + x.val →
      exec (.ldMemVx x) s = .fault (.memoryOutOfRange .data (s.i.toNat + x.val)) ∧
      exec (.ldVxMem x) s = .fault (.memoryOutOfRange .data (s.i.toNat + x.val))) ∧
    (∀ (x y : Reg) (n : Nibble), n ≠ 0 → Config.memSize ≤ s.i.toNat + n.toNat - 1 →
      exec (.drw x y n) s = .fault (.memoryOutOfRange .data (s.i.toNat + n.toNat - 1)))

/-- Storing registers and loading them back into a zeroed register file, memory and `I` untouched between, restores `V[0]` to
`V[x]` and leaves the others zero (section 2, `LD Vx, [I]`, the round-trip property; 95_test_vectors.md S9). -/
def Obligations.StoreThenLoadRestores : Prop :=
  ∀ (x : Reg) (s t : State), s.mem.wf = true → exec (.ldMemVx x) s = .next t →
    ∃ u, exec (.ldVxMem x) (t.writeRegs (Vector.replicate 16 0)) = .next u ∧
      (∀ r : Reg, r ≤ x → u.readV r = s.readV r) ∧ (∀ r : Reg, x < r → u.readV r = 0)

/-- A store is seen by the very next fetch: registers stored over the next instruction are the next instruction (20_memory.md
section 7, "Instruction-fetch coherence"; the spec's decision D27, log 24). -/
def Obligations.NextFetchSeesStore : Prop :=
  ∀ (x : Reg) (i : Instr) (s t : State), s.mem.wf = true → 1 ≤ x.val → s.i = s.pc → exec (.ldMemVx x) s = .next t →
    decode (wordOfBytes (s.readV 0) (s.readV 1)) = .ok i → step t = exec i (t.writePc (t.pc + 2))

/-- The checked accesses: a write where the address exists is what a later read gives, changes no other byte and nothing else; an
address that does not exist is an out-of-range access, and a read changes nothing (20_memory.md section 3). -/
def Obligations.MemoryReadAfterWrite : Prop :=
  ∀ (s : State) (a : Nat) (b : Byte), s.mem.wf = true →
    (a < Config.memSize → ∃ t, s.memWrite1 a b = some t ∧ t.memRead1 a = some b ∧
      (∀ c, c ≠ a → t.memRead1 c = s.memRead1 c) ∧ OnlyChanges [.memory] s t) ∧
    (Config.memSize ≤ a → s.memWrite1 a b = none ∧ s.memRead1 a = none) ∧
    (a + 1 < Config.memSize → ∃ u v, s.memRead1 a = some u ∧ s.memRead1 (a + 1) = some v ∧
      s.memRead2 a = some (wordOfBytes u v)) ∧
    (Config.memSize ≤ a + 1 → s.memRead2 a = none)

/-! ### Display (43_display.md) -/

/-- `CLS`: every cell OFF, nothing else changed, `VF` not written (section 2, `CLS`; the pattern is from general knowledge, G1). -/
def Obligations.ClearTurnsAllOff : Prop :=
  ∀ s : State, ∃ t, exec .cls s = .next t ∧ (∀ x y, t.pix.cell x y = false) ∧ OnlyChanges [.display] s t

/-- `DRW Vx, Vy, n` where its bytes exist, or with `n` = 0: each cell is inverted exactly when the sprite bit that falls on it is 1,
and `VF` is 1 exactly when some cell went from ON to OFF (section 2, `DRW`; which bit is left-most and where the origin and rows
come from are the spec's decision D16, log 22; `n` = 0 and `VF` as origin are its decision D22, log 26). -/
def Obligations.DrawInvertsCoveredCells : Prop :=
  ∀ (x y : Reg) (n : Nibble) (s : State), n = 0 ∨ s.i.toNat + n.toNat - 1 < Config.memSize →
    ∃ t, exec (.drw x y n) s = .next t ∧
      (∀ cx cy, t.pix.cell cx cy =
        (s.pix.cell cx cy != s.spriteCovers (s.readV x).toNat (s.readV y).toNat n.toNat cx cy)) ∧
      t.readV 15 = (if ∃ cx cy, s.pix.cell cx cy = true ∧ t.pix.cell cx cy = false then 1 else 0) ∧
      (∀ r, r ≠ 15 → t.readV r = s.readV r) ∧ OnlyChanges [.regs, .display] s t

/-- Drawing the same sprite twice at the same place gives the first display back; from a clear display the first draw erases
nothing, and the second reports the erasure of whatever the first lit (section 2, `DRW`, and 95_test_vectors.md S5, S6, made
general; decisions as in `DrawInvertsCoveredCells`). With `VF` as origin the first draw moves the place: `DrawInvertsCoveredCells`
covers that form. -/
def Obligations.DrawTwiceRestores : Prop :=
  ∀ (x y : Reg) (n : Nibble) (s t : State), x ≠ 15 → y ≠ 15 → exec (.drw x y n) s = .next t →
    ∃ u, exec (.drw x y n) t = .next u ∧ u.pix = s.pix ∧
      ((∀ cx cy, s.pix.cell cx cy = false) →
        t.readV 15 = 0 ∧ (u.readV 15 = 1 ↔ ∃ cx cy, t.pix.cell cx cy = true))

/-! ### Keypad and timers (44_keypad_timers.md, 60_exceptions.md) -/

/-- `SKP Vx` and `SKNP Vx`: with a key number, two more when that key is pressed, or is not; above 15, the fault (section 1; the
operand is from general knowledge, G2; the fault is the spec's decision D11, log 19). -/
def Obligations.KeySkips : Prop :=
  (∀ (x : Reg) (k : Fin 16) (s : State), (s.readV x).toNat = k.val →
    (∃ t, exec (.skp x) s = .next t ∧ t.pc = (if s.readKey k = true then s.pc + 2 else s.pc) ∧ OnlyChanges [.pc] s t) ∧
    (∃ t, exec (.sknp x) s = .next t ∧ t.pc = (if s.readKey k = true then s.pc else s.pc + 2) ∧ OnlyChanges [.pc] s t)) ∧
  (∀ (x : Reg) (s : State), 15 < (s.readV x).toNat →
    exec (.skp x) s = .fault (.keyIndexOutOfRange (s.readV x)) ∧
    exec (.sknp x) s = .fault (.keyIndexOutOfRange (s.readV x)))

/-- `LD Vx, K`: the least pressed key's number, or `PC` back by 2 so that the step changes nothing at all
(44_keypad_timers.md section 1, `LD Vx, K`). The step is `hostStep`, whose draw and supplied bytes put back afterwards are this
model's form (log 1). -/
def Obligations.WaitKeyPress : Prop :=
  (∀ (x : Reg) (k : Fin 16) (s : State), s.readKey k = true → (∀ j, j < k → s.readKey j = false) →
    ∃ t, exec (.ldVxK x) s = .next t ∧ (t.readV x).toNat = k.val ∧ (∀ r, r ≠ x → t.readV r = s.readV r) ∧
      OnlyChanges [.regs] s t) ∧
  (∀ (x : Reg) (s : State), (∀ k, s.readKey k = false) →
    ∃ t, exec (.ldVxK x) s = .next t ∧ t.pc = s.pc - 2 ∧ OnlyChanges [.pc] s t) ∧
  (∀ (d : Byte) (op : Word) (x : Reg) (s : State), s.opcodeAt op → decode op = .ok (.ldVxK x) →
    (∀ k, s.readKey k = false) → hostStep d s = (s, .ok))

/-- `LD Vx, DT`, `LD DT, Vx` and `LD ST, Vx` (section 2; the instructions are from general knowledge, G2). -/
def Obligations.TimerMoves : Prop :=
  ∀ (x : Reg) (s : State),
    (∃ t, exec (.ldVxDT x) s = .next t ∧ t.readV x = s.dt ∧ (∀ r, r ≠ x → t.readV r = s.readV r) ∧
      OnlyChanges [.regs] s t) ∧
    (∃ t, exec (.ldDTVx x) s = .next t ∧ t.dt = s.readV x ∧ OnlyChanges [.delay] s t) ∧
    (∃ t, exec (.ldSTVx x) s = .next t ∧ t.st = s.readV x ∧ OnlyChanges [.sound] s t)

/-- The timers: 0 at reset; written by their own load and by no other instruction, so no execution decrements them; decremented
by exactly 1 per `tick` while above 0; `DT` read by `LD Vx, DT`, `ST` read by no instruction and by `is_playing_sound` (R28, R29). -/
def Obligations.TimersChangeOnlyByLoadAndTick : Prop :=
  State.reset.dt = 0 ∧ State.reset.st = 0 ∧
  (∀ (i : Instr) (s t : State), exec i s = .next t →
    (t.dt = s.dt ∨ ∃ x, i = .ldDTVx x ∧ t.dt = s.readV x) ∧ (t.st = s.st ∨ ∃ x, i = .ldSTVx x ∧ t.st = s.readV x)) ∧
  (∀ (x : Reg) (s : State), (∃ t, exec (.ldVxDT x) s = .next t ∧ t.readV x = s.dt) ∧
    (∃ t, exec (.ldDTVx x) s = .next t ∧ t.dt = s.readV x) ∧ (∃ t, exec (.ldSTVx x) s = .next t ∧ t.st = s.readV x)) ∧
  (∀ (i : Instr) (s : State) (b : Byte), (∀ x, i ≠ .ldSTVx x) →
    SameOutcome (fun t t' => t' = t.writeSt b) (exec i s) (exec i (s.writeSt b))) ∧
  (∀ s : State, (tick s).dt.toNat = s.dt.toNat - 1 ∧ (tick s).st.toNat = s.st.toNat - 1 ∧
    (isPlayingSound s = true ↔ 0 < s.st.toNat))

/-- The keypad snapshot: released at reset; replaced whole by `set_keypad`; written by no instruction and by no `tick`; read by
`SKP`, `SKNP` and `LD Vx, K` alone (R31). -/
def Obligations.KeypadReadAndWritten : Prop :=
  (∀ k, State.reset.readKey k = false) ∧
  (∀ (pressed : Keypad) (s : State) (k : Fin 16), (setKeypad pressed s).readKey k = pressed.get k) ∧
  (∀ (i : Instr) (s t : State), exec i s = .next t → t.key = s.key) ∧ (∀ s : State, (tick s).key = s.key) ∧
  (∀ (i : Instr) (s : State) (pressed : Keypad), (∀ x, i ≠ .skp x ∧ i ≠ .sknp x ∧ i ≠ .ldVxK x) →
    SameOutcome (fun t t' => t' = t.writeKeys pressed) (exec i s) (exec i (s.writeKeys pressed)))

/-- `tick`, any number of times: each timer counts down by 1 a call, floored at 0, independently, with no other effect; it returns
nothing; and no step lowers a timer but by loading it (60_exceptions.md section 3). The step is `hostStep`: the state a fault leaves
is its form (log 4) and the spec's decision D2 (log 12). -/
def Obligations.TicksCountDownToZero : Prop :=
  (∀ s : State, applyOp s .tick = (tick s, .nothing) ∧ OnlyChanges [.delay, .sound] s (tick s)) ∧
  (∀ (n : Nat) (s : State), (runOps s (List.replicate n .tick)).dt.toNat = s.dt.toNat - n ∧
    (runOps s (List.replicate n .tick)).st.toNat = s.st.toNat - n) ∧
  (∀ (d : Byte) (s : State),
    ((hostStep d s).1.dt.toNat < s.dt.toNat → ∃ op x, s.opcodeAt op ∧ decode op = .ok (.ldDTVx x)) ∧
    ((hostStep d s).1.st.toNat < s.st.toNat → ∃ op x, s.opcodeAt op ∧ decode op = .ok (.ldSTVx x)))

/-- `set_keypad` replaces all 16 elements at once and changes nothing else (R172). -/
def Obligations.SetKeypadReplacesAll : Prop :=
  ∀ (pressed : Keypad) (s : State), applyOp s (.setKeypad pressed) = (setKeypad pressed s, .nothing) ∧
    (∀ k : Fin 16, (setKeypad pressed s).readKey k = pressed.get k) ∧ OnlyChanges [.keys] s (setKeypad pressed s)

/-- `get_display` returns all 2048 cells and `is_playing_sound` whether `ST` is not 0; neither changes any state (R173, R174). -/
def Obligations.DisplayAndSoundReads : Prop :=
  ∀ s : State,
    (∃ d, applyOp s .getDisplay = (s, .display d) ∧ ∀ x y, d.cell x y = s.pix.cell x y) ∧
    (∃ on, applyOp s .isPlayingSound = (s, .sound on) ∧ (on = true ↔ s.st ≠ 0))

/-! ### Reset (10_state.md R38; 70_reset_and_hazards.md) -/

/-- The state after `construct` with an image that fits (R38); the font is the parameter `Config.font` (log 23). -/
def Obligations.ConstructGivesResetValues : Prop :=
  ∀ image : List Byte, image.length ≤ Config.maxImage → ∃ s, construct image = .ok s ∧
    (∀ r, s.readV r = 0) ∧ s.i = 0 ∧ s.pc = 0x200 ∧ s.sp = 0 ∧ (∀ k, s.readStack k = 0) ∧ s.dt = 0 ∧ s.st = 0 ∧
    (∀ x y, s.pix.cell x y = false) ∧ (∀ k, s.readKey k = false) ∧ isPlayingSound s = false ∧
    (∀ a, a < 0x050 → s.byteAt a = 0) ∧
    Config.font.length = 80 ∧ (∀ j (h : j < Config.font.length), s.byteAt (0x050 + j) = Config.font[j]) ∧
    (∀ a, 0x0A0 ≤ a → a < 0x200 → s.byteAt a = 0) ∧
    (∀ j (h : j < image.length), s.byteAt (0x200 + j) = image[j]) ∧
    (∀ a, 0x200 + image.length ≤ a → a < Config.memSize → s.byteAt a = 0)

/-- The first instruction executed is the opcode of the image's first two bytes; where the image has none there, the zero word
is a decode failure (R193). -/
def Obligations.FirstInstructionIsImageHead : Prop :=
  (∀ (b₀ b₁ : Byte) (rest : List Byte) (s : State), construct (b₀ :: b₁ :: rest) = .ok s →
    s.opcodeAt (wordOfBytes b₀ b₁) ∧
    (∀ j (h : j < (b₀ :: b₁ :: rest).length), s.byteAt (0x200 + j) = (b₀ :: b₁ :: rest)[j]) ∧
    (∀ a, 0x200 + (b₀ :: b₁ :: rest).length ≤ a → a < Config.memSize → s.byteAt a = 0)) ∧
  (∀ s : State, s.opcodeAt 0 → step s = .fault (.decodeFailure 0))

/-- An image longer than 3583 bytes makes no machine (70_reset_and_hazards.md section 1, "Image size"; the spec's decision D15,
log 21; the number follows from `MEM_SIZE`, log 11). -/
def Obligations.OversizeImageRefused : Prop :=
  ∀ image : List Byte, 3583 < image.length ↔ construct image = .error (.imageTooLarge image.length)

/-! ### Whole-machine rules -/

/-- What each instruction may change, and nothing else: the pieces of state and the registers of the access summary, and the bytes
it stores to, from `I` up (10_state.md sections 10 and 11; 20_memory.md section 8; `VF` left alone by the rest is the spec's
decision D8, log 17). -/
def Obligations.EveryInstructionFrame : Prop :=
  ∀ (i : Instr) (s t : State), s.mem.wf = true → exec i s = .next t →
    OnlyChanges i.mayWrite s t ∧ (∀ r, i.mayWriteReg r = false → t.readV r = s.readV r) ∧
    (∀ a, a < s.i.toNat ∨ s.i.toNat + i.storedBytes ≤ a → t.byteAt a = s.byteAt a)

/-- The six flag-writing instructions leave 0 or 1 in `VF`, whatever they name as destination (10_state.md section 11; the write
order is the spec's decision D7, log 16). -/
def Obligations.FlagIsZeroOrOne : Prop :=
  ∀ (i : Instr) (s t : State), i.writesFlag = true → exec i s = .next t → t.readV 15 = 0 ∨ t.readV 15 = 1

/-- Each instruction faults exactly where its one fault condition holds, with that fault, and completes everywhere else: nothing
is refused, and no instruction stops on ordinary data (60_exceptions.md section 1, "The complete list" and "Priority"; the
conditions are the spec's decisions D3, D4, D5, D11, D12, log 13, 14, 15, 19). -/
def Obligations.InstructionFaultsExactlyWhen : Prop :=
  ∀ (i : Instr) (s : State),
    (∀ f, i.faultIn s = some f → exec i s = .fault f) ∧ (i.faultIn s = none → ∃ t, exec i s = .next t)

/-- The invariant of reachable states holds at reset (10_state.md sections 13 and 15). -/
def Obligations.ResetMeetsInvariant : Prop := State.reset.Inv

/-- Every step that completes keeps the invariant (10_state.md section 15, derived there; `PC` at most 0x10FE, section 3, derived
there; the canonical form of memory is this model's, log 3). -/
def Obligations.StepKeepsInvariant : Prop := ∀ s t : State, s.Inv → step s = .next t → t.Inv

/-- Every state the host can bring about, by any image and any sequence of operations, faulting steps included, meets the
invariant (10_state.md section 15; "no step is allowed to corrupt state regardless of how many steps occur between ticks"). -/
def Obligations.ReachableStatesMeetInvariant : Prop := ∀ s : State, s.Reachable → s.Inv
end

