-- ==== Sys2Proof/Laws/Decode.lean ====
section
/-! SUPPORT. Fields and packed words as numbers, from which: the fields of a packed word, a word from its fields, the bytes of a
word. -/

namespace Sys2Proof

/-- Concatenation as a number: the left part counts in units of the right part's range. -/
theorem toNat_concat {n m k : Nat} (a : BitVec n) (b : BitVec m) (h : n + m = k) :
    ((a ++ b).cast h).toNat = a.toNat * 2 ^ m + b.toNat := by
  rw [BitVec.toNat_cast, BitVec.toNat_append, Nat.shiftLeft_eq, Nat.mul_comm, ← Nat.two_pow_add_eq_or_of_lt b.isLt]

/-! ### Fields and words as numbers (30_encoding.md R72, R73) -/

theorem hiField_val (op : Word) : (hiField op).val = op.toNat / 4096 := by
  have := op.isLt
  simp only [hiField, BitVec.val_toFin, BitVec.extractLsb'_toNat, Nat.shiftRight_eq_div_pow]
  omega

theorem xField_val (op : Word) : (xField op).val = op.toNat / 256 % 16 := by
  simp only [xField, BitVec.val_toFin, BitVec.extractLsb'_toNat, Nat.shiftRight_eq_div_pow]

theorem yField_val (op : Word) : (yField op).val = op.toNat / 16 % 16 := by
  simp only [yField, BitVec.val_toFin, BitVec.extractLsb'_toNat, Nat.shiftRight_eq_div_pow]

theorem nField_toNat (op : Word) : (nField op).toNat = op.toNat % 16 := by
  simp [nField, BitVec.extractLsb'_toNat]

theorem kkField_toNat (op : Word) : (kkField op).toNat = op.toNat % 256 := by
  simp [kkField, BitVec.extractLsb'_toNat]

theorem nnnField_toNat (op : Word) : (nnnField op).toNat = op.toNat % 4096 := by
  simp [nnnField, BitVec.extractLsb'_toNat]

theorem packNNN_toNat (hi : Nibble) (nnn : Addr12) : (packNNN hi nnn).toNat = hi.toNat * 4096 + nnn.toNat :=
  toNat_concat hi nnn rfl

theorem packXKK_toNat (hi : Nibble) (x : Reg) (kk : Byte) :
    (packXKK hi x kk).toNat = hi.toNat * 4096 + x.val * 256 + kk.toNat := by
  have low : (((BitVec.ofFin x : Nibble) ++ kk : BitVec (4 + 8)).cast rfl : Addr12).toNat = x.val * 256 + kk.toNat :=
    toNat_concat _ kk rfl
  rw [packXKK, packNNN_toNat, low, Nat.add_assoc]

theorem packXYN_toNat (hi : Nibble) (x y : Reg) (n : Nibble) :
    (packXYN hi x y n).toNat = hi.toNat * 4096 + x.val * 256 + y.val * 16 + n.toNat := by
  have low : (((BitVec.ofFin y : Nibble) ++ n : BitVec (4 + 4)).cast rfl : Byte).toNat = y.val * 16 + n.toNat :=
    toNat_concat _ n rfl
  rw [packXYN, packXKK_toNat, low, ← Nat.add_assoc]

theorem wordOfBytes_toNat (high low : Byte) : (wordOfBytes high low).toNat = high.toNat * 256 + low.toNat :=
  toNat_concat high low rfl

theorem highByte_toNat (op : Word) : (highByte op).toNat = op.toNat / 256 := by
  have := op.isLt
  simp only [highByte, BitVec.extractLsb'_toNat, Nat.shiftRight_eq_div_pow]
  omega

theorem lowByte_toNat (op : Word) : (lowByte op).toNat = op.toNat % 256 := by
  simp [lowByte, BitVec.extractLsb'_toNat]

/-! ### The fields of a packed word -/

@[simp] theorem hiField_packNNN (hi : Nibble) (nnn : Addr12) : (hiField (packNNN hi nnn)).val = hi.toNat := by
  have := nnn.isLt
  rw [hiField_val, packNNN_toNat]; omega

@[simp] theorem nnnField_packNNN (hi : Nibble) (nnn : Addr12) : nnnField (packNNN hi nnn) = nnn := by
  have := nnn.isLt
  apply BitVec.eq_of_toNat_eq
  rw [nnnField_toNat, packNNN_toNat]; omega

@[simp] theorem hiField_packXKK (hi : Nibble) (x : Reg) (kk : Byte) : (hiField (packXKK hi x kk)).val = hi.toNat := by
  have := x.isLt
  have := kk.isLt
  rw [hiField_val, packXKK_toNat]; omega

@[simp] theorem xField_packXKK (hi : Nibble) (x : Reg) (kk : Byte) : xField (packXKK hi x kk) = x := by
  have := x.isLt
  have := kk.isLt
  apply Fin.ext
  rw [xField_val, packXKK_toNat]; omega

@[simp] theorem kkField_packXKK (hi : Nibble) (x : Reg) (kk : Byte) : kkField (packXKK hi x kk) = kk := by
  have := kk.isLt
  apply BitVec.eq_of_toNat_eq
  rw [kkField_toNat, packXKK_toNat]; omega

@[simp] theorem hiField_packXYN (hi : Nibble) (x y : Reg) (n : Nibble) :
    (hiField (packXYN hi x y n)).val = hi.toNat := by
  have := x.isLt
  have := y.isLt
  have := n.isLt
  rw [hiField_val, packXYN_toNat]; omega

@[simp] theorem xField_packXYN (hi : Nibble) (x y : Reg) (n : Nibble) : xField (packXYN hi x y n) = x := by
  have := x.isLt
  have := y.isLt
  have := n.isLt
  apply Fin.ext
  rw [xField_val, packXYN_toNat]; omega

@[simp] theorem yField_packXYN (hi : Nibble) (x y : Reg) (n : Nibble) : yField (packXYN hi x y n) = y := by
  have := y.isLt
  have := n.isLt
  apply Fin.ext
  rw [yField_val, packXYN_toNat]; omega

@[simp] theorem nField_packXYN (hi : Nibble) (x y : Reg) (n : Nibble) : nField (packXYN hi x y n) = n := by
  have := n.isLt
  apply BitVec.eq_of_toNat_eq
  rw [nField_toNat, packXYN_toNat]; omega

/-! ### A word from its fields -/

theorem packNNN_fields (op : Word) : packNNN (BitVec.ofFin (hiField op)) (nnnField op) = op := by
  apply BitVec.eq_of_toNat_eq
  rw [packNNN_toNat, nnnField_toNat, BitVec.toNat_ofFin, hiField_val]; omega

theorem packXKK_fields (op : Word) : packXKK (BitVec.ofFin (hiField op)) (xField op) (kkField op) = op := by
  apply BitVec.eq_of_toNat_eq
  rw [packXKK_toNat, xField_val, kkField_toNat, BitVec.toNat_ofFin, hiField_val]; omega

theorem packXYN_fields (op : Word) :
    packXYN (BitVec.ofFin (hiField op)) (xField op) (yField op) (nField op) = op := by
  apply BitVec.eq_of_toNat_eq
  rw [packXYN_toNat, xField_val, yField_val, nField_toNat, BitVec.toNat_ofFin, hiField_val]; omega

/-! ### Bytes of a word (20_memory.md R52) -/

@[simp] theorem wordOfBytes_bytes (op : Word) : wordOfBytes (highByte op) (lowByte op) = op := by
  apply BitVec.eq_of_toNat_eq
  rw [wordOfBytes_toNat, highByte_toNat, lowByte_toNat]; omega

@[simp] theorem highByte_wordOfBytes (a b : Byte) : highByte (wordOfBytes a b) = a := by
  have := b.isLt
  apply BitVec.eq_of_toNat_eq
  rw [highByte_toNat, wordOfBytes_toNat]; omega

@[simp] theorem lowByte_wordOfBytes (a b : Byte) : lowByte (wordOfBytes a b) = b := by
  have := b.isLt
  apply BitVec.eq_of_toNat_eq
  rw [lowByte_toNat, wordOfBytes_toNat]; omega

end Sys2Proof
end

