-- ==== Sys2Proof/Laws/State.lean ====
section
/-! SUPPORT. The projections of every state update, one lemma per field per update, true by rfl; and what the read accessors
give after an update, so that no later proof unfolds a record update. -/

namespace Sys2Proof.Machine

/-! ### writeV -/

@[simp] theorem State.writeV_v (s : State) (x : Reg) (b : Byte) : (s.writeV x b).v = s.v.set x b := rfl
@[simp] theorem State.writeV_i (s : State) (x : Reg) (b : Byte) : (s.writeV x b).i = s.i := rfl
@[simp] theorem State.writeV_pc (s : State) (x : Reg) (b : Byte) : (s.writeV x b).pc = s.pc := rfl
@[simp] theorem State.writeV_sp (s : State) (x : Reg) (b : Byte) : (s.writeV x b).sp = s.sp := rfl
@[simp] theorem State.writeV_stack (s : State) (x : Reg) (b : Byte) : (s.writeV x b).stack = s.stack := rfl
@[simp] theorem State.writeV_dt (s : State) (x : Reg) (b : Byte) : (s.writeV x b).dt = s.dt := rfl
@[simp] theorem State.writeV_st (s : State) (x : Reg) (b : Byte) : (s.writeV x b).st = s.st := rfl
@[simp] theorem State.writeV_pix (s : State) (x : Reg) (b : Byte) : (s.writeV x b).pix = s.pix := rfl
@[simp] theorem State.writeV_key (s : State) (x : Reg) (b : Byte) : (s.writeV x b).key = s.key := rfl
@[simp] theorem State.writeV_mem (s : State) (x : Reg) (b : Byte) : (s.writeV x b).mem = s.mem := rfl
@[simp] theorem State.writeV_entropyIn (s : State) (x : Reg) (b : Byte) : (s.writeV x b).entropyIn = s.entropyIn := rfl
@[simp] theorem State.writeV_entropyCount (s : State) (x : Reg) (b : Byte) : (s.writeV x b).entropyCount = s.entropyCount := rfl
@[simp] theorem State.writeV_readStack (s : State) (x : Reg) (b : Byte) (k : Fin 16) : (s.writeV x b).readStack k = s.readStack k := rfl
@[simp] theorem State.writeV_readKey (s : State) (x : Reg) (b : Byte) (k : Fin 16) : (s.writeV x b).readKey k = s.readKey k := rfl
@[simp] theorem State.writeV_byteAt (s : State) (x : Reg) (b : Byte) (c : Nat) : (s.writeV x b).byteAt c = s.byteAt c := rfl
@[simp] theorem State.writeV_dataAddr (s : State) (x : Reg) (b : Byte) (c : Nat) : (s.writeV x b).dataAddr c = s.dataAddr c := rfl

/-! ### writeRegs -/

@[simp] theorem State.writeRegs_v (s : State) (regs : Vector Byte 16) : (s.writeRegs regs).v = regs := rfl
@[simp] theorem State.writeRegs_i (s : State) (regs : Vector Byte 16) : (s.writeRegs regs).i = s.i := rfl
@[simp] theorem State.writeRegs_pc (s : State) (regs : Vector Byte 16) : (s.writeRegs regs).pc = s.pc := rfl
@[simp] theorem State.writeRegs_sp (s : State) (regs : Vector Byte 16) : (s.writeRegs regs).sp = s.sp := rfl
@[simp] theorem State.writeRegs_stack (s : State) (regs : Vector Byte 16) : (s.writeRegs regs).stack = s.stack := rfl
@[simp] theorem State.writeRegs_dt (s : State) (regs : Vector Byte 16) : (s.writeRegs regs).dt = s.dt := rfl
@[simp] theorem State.writeRegs_st (s : State) (regs : Vector Byte 16) : (s.writeRegs regs).st = s.st := rfl
@[simp] theorem State.writeRegs_pix (s : State) (regs : Vector Byte 16) : (s.writeRegs regs).pix = s.pix := rfl
@[simp] theorem State.writeRegs_key (s : State) (regs : Vector Byte 16) : (s.writeRegs regs).key = s.key := rfl
@[simp] theorem State.writeRegs_mem (s : State) (regs : Vector Byte 16) : (s.writeRegs regs).mem = s.mem := rfl
@[simp] theorem State.writeRegs_entropyIn (s : State) (regs : Vector Byte 16) : (s.writeRegs regs).entropyIn = s.entropyIn := rfl
@[simp] theorem State.writeRegs_entropyCount (s : State) (regs : Vector Byte 16) : (s.writeRegs regs).entropyCount = s.entropyCount := rfl
@[simp] theorem State.writeRegs_readStack (s : State) (regs : Vector Byte 16) (k : Fin 16) : (s.writeRegs regs).readStack k = s.readStack k := rfl
@[simp] theorem State.writeRegs_readKey (s : State) (regs : Vector Byte 16) (k : Fin 16) : (s.writeRegs regs).readKey k = s.readKey k := rfl
@[simp] theorem State.writeRegs_byteAt (s : State) (regs : Vector Byte 16) (c : Nat) : (s.writeRegs regs).byteAt c = s.byteAt c := rfl
@[simp] theorem State.writeRegs_dataAddr (s : State) (regs : Vector Byte 16) (c : Nat) : (s.writeRegs regs).dataAddr c = s.dataAddr c := rfl

/-! ### writeI -/

@[simp] theorem State.writeI_v (s : State) (w : Word) : (s.writeI w).v = s.v := rfl
@[simp] theorem State.writeI_i (s : State) (w : Word) : (s.writeI w).i = w := rfl
@[simp] theorem State.writeI_pc (s : State) (w : Word) : (s.writeI w).pc = s.pc := rfl
@[simp] theorem State.writeI_sp (s : State) (w : Word) : (s.writeI w).sp = s.sp := rfl
@[simp] theorem State.writeI_stack (s : State) (w : Word) : (s.writeI w).stack = s.stack := rfl
@[simp] theorem State.writeI_dt (s : State) (w : Word) : (s.writeI w).dt = s.dt := rfl
@[simp] theorem State.writeI_st (s : State) (w : Word) : (s.writeI w).st = s.st := rfl
@[simp] theorem State.writeI_pix (s : State) (w : Word) : (s.writeI w).pix = s.pix := rfl
@[simp] theorem State.writeI_key (s : State) (w : Word) : (s.writeI w).key = s.key := rfl
@[simp] theorem State.writeI_mem (s : State) (w : Word) : (s.writeI w).mem = s.mem := rfl
@[simp] theorem State.writeI_entropyIn (s : State) (w : Word) : (s.writeI w).entropyIn = s.entropyIn := rfl
@[simp] theorem State.writeI_entropyCount (s : State) (w : Word) : (s.writeI w).entropyCount = s.entropyCount := rfl
@[simp] theorem State.writeI_readV (s : State) (w : Word) (z : Reg) : (s.writeI w).readV z = s.readV z := rfl
@[simp] theorem State.writeI_readStack (s : State) (w : Word) (k : Fin 16) : (s.writeI w).readStack k = s.readStack k := rfl
@[simp] theorem State.writeI_readKey (s : State) (w : Word) (k : Fin 16) : (s.writeI w).readKey k = s.readKey k := rfl
@[simp] theorem State.writeI_byteAt (s : State) (w : Word) (c : Nat) : (s.writeI w).byteAt c = s.byteAt c := rfl

/-! ### writePc -/

@[simp] theorem State.writePc_v (s : State) (w : Word) : (s.writePc w).v = s.v := rfl
@[simp] theorem State.writePc_i (s : State) (w : Word) : (s.writePc w).i = s.i := rfl
@[simp] theorem State.writePc_pc (s : State) (w : Word) : (s.writePc w).pc = w := rfl
@[simp] theorem State.writePc_sp (s : State) (w : Word) : (s.writePc w).sp = s.sp := rfl
@[simp] theorem State.writePc_stack (s : State) (w : Word) : (s.writePc w).stack = s.stack := rfl
@[simp] theorem State.writePc_dt (s : State) (w : Word) : (s.writePc w).dt = s.dt := rfl
@[simp] theorem State.writePc_st (s : State) (w : Word) : (s.writePc w).st = s.st := rfl
@[simp] theorem State.writePc_pix (s : State) (w : Word) : (s.writePc w).pix = s.pix := rfl
@[simp] theorem State.writePc_key (s : State) (w : Word) : (s.writePc w).key = s.key := rfl
@[simp] theorem State.writePc_mem (s : State) (w : Word) : (s.writePc w).mem = s.mem := rfl
@[simp] theorem State.writePc_entropyIn (s : State) (w : Word) : (s.writePc w).entropyIn = s.entropyIn := rfl
@[simp] theorem State.writePc_entropyCount (s : State) (w : Word) : (s.writePc w).entropyCount = s.entropyCount := rfl
@[simp] theorem State.writePc_readV (s : State) (w : Word) (z : Reg) : (s.writePc w).readV z = s.readV z := rfl
@[simp] theorem State.writePc_readStack (s : State) (w : Word) (k : Fin 16) : (s.writePc w).readStack k = s.readStack k := rfl
@[simp] theorem State.writePc_readKey (s : State) (w : Word) (k : Fin 16) : (s.writePc w).readKey k = s.readKey k := rfl
@[simp] theorem State.writePc_byteAt (s : State) (w : Word) (c : Nat) : (s.writePc w).byteAt c = s.byteAt c := rfl
@[simp] theorem State.writePc_dataAddr (s : State) (w : Word) (c : Nat) : (s.writePc w).dataAddr c = s.dataAddr c := rfl

/-! ### writeDt -/

@[simp] theorem State.writeDt_v (s : State) (b : Byte) : (s.writeDt b).v = s.v := rfl
@[simp] theorem State.writeDt_i (s : State) (b : Byte) : (s.writeDt b).i = s.i := rfl
@[simp] theorem State.writeDt_pc (s : State) (b : Byte) : (s.writeDt b).pc = s.pc := rfl
@[simp] theorem State.writeDt_sp (s : State) (b : Byte) : (s.writeDt b).sp = s.sp := rfl
@[simp] theorem State.writeDt_stack (s : State) (b : Byte) : (s.writeDt b).stack = s.stack := rfl
@[simp] theorem State.writeDt_dt (s : State) (b : Byte) : (s.writeDt b).dt = b := rfl
@[simp] theorem State.writeDt_st (s : State) (b : Byte) : (s.writeDt b).st = s.st := rfl
@[simp] theorem State.writeDt_pix (s : State) (b : Byte) : (s.writeDt b).pix = s.pix := rfl
@[simp] theorem State.writeDt_key (s : State) (b : Byte) : (s.writeDt b).key = s.key := rfl
@[simp] theorem State.writeDt_mem (s : State) (b : Byte) : (s.writeDt b).mem = s.mem := rfl
@[simp] theorem State.writeDt_entropyIn (s : State) (b : Byte) : (s.writeDt b).entropyIn = s.entropyIn := rfl
@[simp] theorem State.writeDt_entropyCount (s : State) (b : Byte) : (s.writeDt b).entropyCount = s.entropyCount := rfl
@[simp] theorem State.writeDt_readV (s : State) (b : Byte) (z : Reg) : (s.writeDt b).readV z = s.readV z := rfl
@[simp] theorem State.writeDt_readStack (s : State) (b : Byte) (k : Fin 16) : (s.writeDt b).readStack k = s.readStack k := rfl
@[simp] theorem State.writeDt_readKey (s : State) (b : Byte) (k : Fin 16) : (s.writeDt b).readKey k = s.readKey k := rfl
@[simp] theorem State.writeDt_byteAt (s : State) (b : Byte) (c : Nat) : (s.writeDt b).byteAt c = s.byteAt c := rfl
@[simp] theorem State.writeDt_dataAddr (s : State) (b : Byte) (c : Nat) : (s.writeDt b).dataAddr c = s.dataAddr c := rfl

/-! ### writeSt -/

@[simp] theorem State.writeSt_v (s : State) (b : Byte) : (s.writeSt b).v = s.v := rfl
@[simp] theorem State.writeSt_i (s : State) (b : Byte) : (s.writeSt b).i = s.i := rfl
@[simp] theorem State.writeSt_pc (s : State) (b : Byte) : (s.writeSt b).pc = s.pc := rfl
@[simp] theorem State.writeSt_sp (s : State) (b : Byte) : (s.writeSt b).sp = s.sp := rfl
@[simp] theorem State.writeSt_stack (s : State) (b : Byte) : (s.writeSt b).stack = s.stack := rfl
@[simp] theorem State.writeSt_dt (s : State) (b : Byte) : (s.writeSt b).dt = s.dt := rfl
@[simp] theorem State.writeSt_st (s : State) (b : Byte) : (s.writeSt b).st = b := rfl
@[simp] theorem State.writeSt_pix (s : State) (b : Byte) : (s.writeSt b).pix = s.pix := rfl
@[simp] theorem State.writeSt_key (s : State) (b : Byte) : (s.writeSt b).key = s.key := rfl
@[simp] theorem State.writeSt_mem (s : State) (b : Byte) : (s.writeSt b).mem = s.mem := rfl
@[simp] theorem State.writeSt_entropyIn (s : State) (b : Byte) : (s.writeSt b).entropyIn = s.entropyIn := rfl
@[simp] theorem State.writeSt_entropyCount (s : State) (b : Byte) : (s.writeSt b).entropyCount = s.entropyCount := rfl
@[simp] theorem State.writeSt_readV (s : State) (b : Byte) (z : Reg) : (s.writeSt b).readV z = s.readV z := rfl
@[simp] theorem State.writeSt_readStack (s : State) (b : Byte) (k : Fin 16) : (s.writeSt b).readStack k = s.readStack k := rfl
@[simp] theorem State.writeSt_readKey (s : State) (b : Byte) (k : Fin 16) : (s.writeSt b).readKey k = s.readKey k := rfl
@[simp] theorem State.writeSt_byteAt (s : State) (b : Byte) (c : Nat) : (s.writeSt b).byteAt c = s.byteAt c := rfl
@[simp] theorem State.writeSt_dataAddr (s : State) (b : Byte) (c : Nat) : (s.writeSt b).dataAddr c = s.dataAddr c := rfl

/-! ### push -/

@[simp] theorem State.push_v (s : State) (w : Word) : (s.push w).v = s.v := rfl
@[simp] theorem State.push_i (s : State) (w : Word) : (s.push w).i = s.i := rfl
@[simp] theorem State.push_pc (s : State) (w : Word) : (s.push w).pc = s.pc := rfl
@[simp] theorem State.push_sp (s : State) (w : Word) : (s.push w).sp = s.sp + 1 := rfl
@[simp] theorem State.push_stack (s : State) (w : Word) : (s.push w).stack = s.stack.set (s.sp + 1).val w (s.sp + 1).isLt := rfl
@[simp] theorem State.push_dt (s : State) (w : Word) : (s.push w).dt = s.dt := rfl
@[simp] theorem State.push_st (s : State) (w : Word) : (s.push w).st = s.st := rfl
@[simp] theorem State.push_pix (s : State) (w : Word) : (s.push w).pix = s.pix := rfl
@[simp] theorem State.push_key (s : State) (w : Word) : (s.push w).key = s.key := rfl
@[simp] theorem State.push_mem (s : State) (w : Word) : (s.push w).mem = s.mem := rfl
@[simp] theorem State.push_entropyIn (s : State) (w : Word) : (s.push w).entropyIn = s.entropyIn := rfl
@[simp] theorem State.push_entropyCount (s : State) (w : Word) : (s.push w).entropyCount = s.entropyCount := rfl
@[simp] theorem State.push_readV (s : State) (w : Word) (z : Reg) : (s.push w).readV z = s.readV z := rfl
@[simp] theorem State.push_readKey (s : State) (w : Word) (k : Fin 16) : (s.push w).readKey k = s.readKey k := rfl
@[simp] theorem State.push_byteAt (s : State) (w : Word) (c : Nat) : (s.push w).byteAt c = s.byteAt c := rfl
@[simp] theorem State.push_dataAddr (s : State) (w : Word) (c : Nat) : (s.push w).dataAddr c = s.dataAddr c := rfl

/-! ### pop -/

@[simp] theorem State.pop_v (s : State) : (s.pop).v = s.v := rfl
@[simp] theorem State.pop_i (s : State) : (s.pop).i = s.i := rfl
@[simp] theorem State.pop_pc (s : State) : (s.pop).pc = s.pc := rfl
@[simp] theorem State.pop_sp (s : State) : (s.pop).sp = s.sp - 1 := rfl
@[simp] theorem State.pop_stack (s : State) : (s.pop).stack = s.stack := rfl
@[simp] theorem State.pop_dt (s : State) : (s.pop).dt = s.dt := rfl
@[simp] theorem State.pop_st (s : State) : (s.pop).st = s.st := rfl
@[simp] theorem State.pop_pix (s : State) : (s.pop).pix = s.pix := rfl
@[simp] theorem State.pop_key (s : State) : (s.pop).key = s.key := rfl
@[simp] theorem State.pop_mem (s : State) : (s.pop).mem = s.mem := rfl
@[simp] theorem State.pop_entropyIn (s : State) : (s.pop).entropyIn = s.entropyIn := rfl
@[simp] theorem State.pop_entropyCount (s : State) : (s.pop).entropyCount = s.entropyCount := rfl
@[simp] theorem State.pop_readV (s : State) (z : Reg) : (s.pop).readV z = s.readV z := rfl
@[simp] theorem State.pop_readStack (s : State) (k : Fin 16) : (s.pop).readStack k = s.readStack k := rfl
@[simp] theorem State.pop_readKey (s : State) (k : Fin 16) : (s.pop).readKey k = s.readKey k := rfl
@[simp] theorem State.pop_byteAt (s : State) (c : Nat) : (s.pop).byteAt c = s.byteAt c := rfl
@[simp] theorem State.pop_dataAddr (s : State) (c : Nat) : (s.pop).dataAddr c = s.dataAddr c := rfl

/-! ### writePix -/

@[simp] theorem State.writePix_v (s : State) (d : Display) : (s.writePix d).v = s.v := rfl
@[simp] theorem State.writePix_i (s : State) (d : Display) : (s.writePix d).i = s.i := rfl
@[simp] theorem State.writePix_pc (s : State) (d : Display) : (s.writePix d).pc = s.pc := rfl
@[simp] theorem State.writePix_sp (s : State) (d : Display) : (s.writePix d).sp = s.sp := rfl
@[simp] theorem State.writePix_stack (s : State) (d : Display) : (s.writePix d).stack = s.stack := rfl
@[simp] theorem State.writePix_dt (s : State) (d : Display) : (s.writePix d).dt = s.dt := rfl
@[simp] theorem State.writePix_st (s : State) (d : Display) : (s.writePix d).st = s.st := rfl
@[simp] theorem State.writePix_pix (s : State) (d : Display) : (s.writePix d).pix = d := rfl
@[simp] theorem State.writePix_key (s : State) (d : Display) : (s.writePix d).key = s.key := rfl
@[simp] theorem State.writePix_mem (s : State) (d : Display) : (s.writePix d).mem = s.mem := rfl
@[simp] theorem State.writePix_entropyIn (s : State) (d : Display) : (s.writePix d).entropyIn = s.entropyIn := rfl
@[simp] theorem State.writePix_entropyCount (s : State) (d : Display) : (s.writePix d).entropyCount = s.entropyCount := rfl
@[simp] theorem State.writePix_readV (s : State) (d : Display) (z : Reg) : (s.writePix d).readV z = s.readV z := rfl
@[simp] theorem State.writePix_readStack (s : State) (d : Display) (k : Fin 16) : (s.writePix d).readStack k = s.readStack k := rfl
@[simp] theorem State.writePix_readKey (s : State) (d : Display) (k : Fin 16) : (s.writePix d).readKey k = s.readKey k := rfl
@[simp] theorem State.writePix_byteAt (s : State) (d : Display) (c : Nat) : (s.writePix d).byteAt c = s.byteAt c := rfl
@[simp] theorem State.writePix_dataAddr (s : State) (d : Display) (c : Nat) : (s.writePix d).dataAddr c = s.dataAddr c := rfl

/-! ### writeKeys -/

@[simp] theorem State.writeKeys_v (s : State) (pressed : Keypad) : (s.writeKeys pressed).v = s.v := rfl
@[simp] theorem State.writeKeys_i (s : State) (pressed : Keypad) : (s.writeKeys pressed).i = s.i := rfl
@[simp] theorem State.writeKeys_pc (s : State) (pressed : Keypad) : (s.writeKeys pressed).pc = s.pc := rfl
@[simp] theorem State.writeKeys_sp (s : State) (pressed : Keypad) : (s.writeKeys pressed).sp = s.sp := rfl
@[simp] theorem State.writeKeys_stack (s : State) (pressed : Keypad) : (s.writeKeys pressed).stack = s.stack := rfl
@[simp] theorem State.writeKeys_dt (s : State) (pressed : Keypad) : (s.writeKeys pressed).dt = s.dt := rfl
@[simp] theorem State.writeKeys_st (s : State) (pressed : Keypad) : (s.writeKeys pressed).st = s.st := rfl
@[simp] theorem State.writeKeys_pix (s : State) (pressed : Keypad) : (s.writeKeys pressed).pix = s.pix := rfl
@[simp] theorem State.writeKeys_key (s : State) (pressed : Keypad) : (s.writeKeys pressed).key = pressed := rfl
@[simp] theorem State.writeKeys_mem (s : State) (pressed : Keypad) : (s.writeKeys pressed).mem = s.mem := rfl
@[simp] theorem State.writeKeys_entropyIn (s : State) (pressed : Keypad) : (s.writeKeys pressed).entropyIn = s.entropyIn := rfl
@[simp] theorem State.writeKeys_entropyCount (s : State) (pressed : Keypad) : (s.writeKeys pressed).entropyCount = s.entropyCount := rfl
@[simp] theorem State.writeKeys_readV (s : State) (pressed : Keypad) (z : Reg) : (s.writeKeys pressed).readV z = s.readV z := rfl
@[simp] theorem State.writeKeys_readStack (s : State) (pressed : Keypad) (k : Fin 16) : (s.writeKeys pressed).readStack k = s.readStack k := rfl
@[simp] theorem State.writeKeys_byteAt (s : State) (pressed : Keypad) (c : Nat) : (s.writeKeys pressed).byteAt c = s.byteAt c := rfl
@[simp] theorem State.writeKeys_dataAddr (s : State) (pressed : Keypad) (c : Nat) : (s.writeKeys pressed).dataAddr c = s.dataAddr c := rfl

/-! ### supply -/

@[simp] theorem State.supply_v (s : State) (bytes : List Byte) : (s.supply bytes).v = s.v := rfl
@[simp] theorem State.supply_i (s : State) (bytes : List Byte) : (s.supply bytes).i = s.i := rfl
@[simp] theorem State.supply_pc (s : State) (bytes : List Byte) : (s.supply bytes).pc = s.pc := rfl
@[simp] theorem State.supply_sp (s : State) (bytes : List Byte) : (s.supply bytes).sp = s.sp := rfl
@[simp] theorem State.supply_stack (s : State) (bytes : List Byte) : (s.supply bytes).stack = s.stack := rfl
@[simp] theorem State.supply_dt (s : State) (bytes : List Byte) : (s.supply bytes).dt = s.dt := rfl
@[simp] theorem State.supply_st (s : State) (bytes : List Byte) : (s.supply bytes).st = s.st := rfl
@[simp] theorem State.supply_pix (s : State) (bytes : List Byte) : (s.supply bytes).pix = s.pix := rfl
@[simp] theorem State.supply_key (s : State) (bytes : List Byte) : (s.supply bytes).key = s.key := rfl
@[simp] theorem State.supply_mem (s : State) (bytes : List Byte) : (s.supply bytes).mem = s.mem := rfl
@[simp] theorem State.supply_entropyIn (s : State) (bytes : List Byte) : (s.supply bytes).entropyIn = bytes := rfl
@[simp] theorem State.supply_entropyCount (s : State) (bytes : List Byte) : (s.supply bytes).entropyCount = s.entropyCount := rfl
@[simp] theorem State.supply_readV (s : State) (bytes : List Byte) (z : Reg) : (s.supply bytes).readV z = s.readV z := rfl
@[simp] theorem State.supply_readStack (s : State) (bytes : List Byte) (k : Fin 16) : (s.supply bytes).readStack k = s.readStack k := rfl
@[simp] theorem State.supply_readKey (s : State) (bytes : List Byte) (k : Fin 16) : (s.supply bytes).readKey k = s.readKey k := rfl
@[simp] theorem State.supply_byteAt (s : State) (bytes : List Byte) (c : Nat) : (s.supply bytes).byteAt c = s.byteAt c := rfl
@[simp] theorem State.supply_dataAddr (s : State) (bytes : List Byte) (c : Nat) : (s.supply bytes).dataAddr c = s.dataAddr c := rfl

/-! ### storeBytes -/

@[simp] theorem State.storeBytes_v (s : State) (a : Nat) (bytes : List Byte) : (s.storeBytes a bytes).v = s.v := rfl
@[simp] theorem State.storeBytes_i (s : State) (a : Nat) (bytes : List Byte) : (s.storeBytes a bytes).i = s.i := rfl
@[simp] theorem State.storeBytes_pc (s : State) (a : Nat) (bytes : List Byte) : (s.storeBytes a bytes).pc = s.pc := rfl
@[simp] theorem State.storeBytes_sp (s : State) (a : Nat) (bytes : List Byte) : (s.storeBytes a bytes).sp = s.sp := rfl
@[simp] theorem State.storeBytes_stack (s : State) (a : Nat) (bytes : List Byte) : (s.storeBytes a bytes).stack = s.stack := rfl
@[simp] theorem State.storeBytes_dt (s : State) (a : Nat) (bytes : List Byte) : (s.storeBytes a bytes).dt = s.dt := rfl
@[simp] theorem State.storeBytes_st (s : State) (a : Nat) (bytes : List Byte) : (s.storeBytes a bytes).st = s.st := rfl
@[simp] theorem State.storeBytes_pix (s : State) (a : Nat) (bytes : List Byte) : (s.storeBytes a bytes).pix = s.pix := rfl
@[simp] theorem State.storeBytes_key (s : State) (a : Nat) (bytes : List Byte) : (s.storeBytes a bytes).key = s.key := rfl
@[simp] theorem State.storeBytes_mem (s : State) (a : Nat) (bytes : List Byte) : (s.storeBytes a bytes).mem = s.mem.writeBytes a bytes := rfl
@[simp] theorem State.storeBytes_entropyIn (s : State) (a : Nat) (bytes : List Byte) : (s.storeBytes a bytes).entropyIn = s.entropyIn := rfl
@[simp] theorem State.storeBytes_entropyCount (s : State) (a : Nat) (bytes : List Byte) : (s.storeBytes a bytes).entropyCount = s.entropyCount := rfl
@[simp] theorem State.storeBytes_readV (s : State) (a : Nat) (bytes : List Byte) (z : Reg) : (s.storeBytes a bytes).readV z = s.readV z := rfl
@[simp] theorem State.storeBytes_readStack (s : State) (a : Nat) (bytes : List Byte) (k : Fin 16) : (s.storeBytes a bytes).readStack k = s.readStack k := rfl
@[simp] theorem State.storeBytes_readKey (s : State) (a : Nat) (bytes : List Byte) (k : Fin 16) : (s.storeBytes a bytes).readKey k = s.readKey k := rfl
@[simp] theorem State.storeBytes_dataAddr (s : State) (a : Nat) (bytes : List Byte) (c : Nat) : (s.storeBytes a bytes).dataAddr c = s.dataAddr c := rfl

/-! ### advance -/

@[simp] theorem State.advance_v (s : State) : (s.advance).v = s.v := rfl
@[simp] theorem State.advance_i (s : State) : (s.advance).i = s.i := rfl
@[simp] theorem State.advance_pc (s : State) : (s.advance).pc = s.pc + 2 := rfl
@[simp] theorem State.advance_sp (s : State) : (s.advance).sp = s.sp := rfl
@[simp] theorem State.advance_stack (s : State) : (s.advance).stack = s.stack := rfl
@[simp] theorem State.advance_dt (s : State) : (s.advance).dt = s.dt := rfl
@[simp] theorem State.advance_st (s : State) : (s.advance).st = s.st := rfl
@[simp] theorem State.advance_pix (s : State) : (s.advance).pix = s.pix := rfl
@[simp] theorem State.advance_key (s : State) : (s.advance).key = s.key := rfl
@[simp] theorem State.advance_mem (s : State) : (s.advance).mem = s.mem := rfl
@[simp] theorem State.advance_entropyIn (s : State) : (s.advance).entropyIn = s.entropyIn := rfl
@[simp] theorem State.advance_entropyCount (s : State) : (s.advance).entropyCount = s.entropyCount := rfl
@[simp] theorem State.advance_readV (s : State) (z : Reg) : (s.advance).readV z = s.readV z := rfl
@[simp] theorem State.advance_readStack (s : State) (k : Fin 16) : (s.advance).readStack k = s.readStack k := rfl
@[simp] theorem State.advance_readKey (s : State) (k : Fin 16) : (s.advance).readKey k = s.readKey k := rfl
@[simp] theorem State.advance_byteAt (s : State) (c : Nat) : (s.advance).byteAt c = s.byteAt c := rfl
@[simp] theorem State.advance_dataAddr (s : State) (c : Nat) : (s.advance).dataAddr c = s.dataAddr c := rfl

/-! ### writeWithFlag -/

@[simp] theorem State.writeWithFlag_v (s : State) (x : Reg) (r f : Byte) : (s.writeWithFlag x r f).v = (s.v.set x r).set vf f := rfl
@[simp] theorem State.writeWithFlag_i (s : State) (x : Reg) (r f : Byte) : (s.writeWithFlag x r f).i = s.i := rfl
@[simp] theorem State.writeWithFlag_pc (s : State) (x : Reg) (r f : Byte) : (s.writeWithFlag x r f).pc = s.pc := rfl
@[simp] theorem State.writeWithFlag_sp (s : State) (x : Reg) (r f : Byte) : (s.writeWithFlag x r f).sp = s.sp := rfl
@[simp] theorem State.writeWithFlag_stack (s : State) (x : Reg) (r f : Byte) : (s.writeWithFlag x r f).stack = s.stack := rfl
@[simp] theorem State.writeWithFlag_dt (s : State) (x : Reg) (r f : Byte) : (s.writeWithFlag x r f).dt = s.dt := rfl
@[simp] theorem State.writeWithFlag_st (s : State) (x : Reg) (r f : Byte) : (s.writeWithFlag x r f).st = s.st := rfl
@[simp] theorem State.writeWithFlag_pix (s : State) (x : Reg) (r f : Byte) : (s.writeWithFlag x r f).pix = s.pix := rfl
@[simp] theorem State.writeWithFlag_key (s : State) (x : Reg) (r f : Byte) : (s.writeWithFlag x r f).key = s.key := rfl
@[simp] theorem State.writeWithFlag_mem (s : State) (x : Reg) (r f : Byte) : (s.writeWithFlag x r f).mem = s.mem := rfl
@[simp] theorem State.writeWithFlag_entropyIn (s : State) (x : Reg) (r f : Byte) : (s.writeWithFlag x r f).entropyIn = s.entropyIn := rfl
@[simp] theorem State.writeWithFlag_entropyCount (s : State) (x : Reg) (r f : Byte) : (s.writeWithFlag x r f).entropyCount = s.entropyCount := rfl
@[simp] theorem State.writeWithFlag_readStack (s : State) (x : Reg) (r f : Byte) (k : Fin 16) : (s.writeWithFlag x r f).readStack k = s.readStack k := rfl
@[simp] theorem State.writeWithFlag_readKey (s : State) (x : Reg) (r f : Byte) (k : Fin 16) : (s.writeWithFlag x r f).readKey k = s.readKey k := rfl
@[simp] theorem State.writeWithFlag_byteAt (s : State) (x : Reg) (r f : Byte) (c : Nat) : (s.writeWithFlag x r f).byteAt c = s.byteAt c := rfl
@[simp] theorem State.writeWithFlag_dataAddr (s : State) (x : Reg) (r f : Byte) (c : Nat) : (s.writeWithFlag x r f).dataAddr c = s.dataAddr c := rfl

/-! ### consumeDraw -/

@[simp] theorem State.consumeDraw_v (s : State) : s.consumeDraw.v = s.v := by
  unfold State.consumeDraw; split <;> rfl
@[simp] theorem State.consumeDraw_i (s : State) : s.consumeDraw.i = s.i := by
  unfold State.consumeDraw; split <;> rfl
@[simp] theorem State.consumeDraw_pc (s : State) : s.consumeDraw.pc = s.pc := by
  unfold State.consumeDraw; split <;> rfl
@[simp] theorem State.consumeDraw_sp (s : State) : s.consumeDraw.sp = s.sp := by
  unfold State.consumeDraw; split <;> rfl
@[simp] theorem State.consumeDraw_stack (s : State) : s.consumeDraw.stack = s.stack := by
  unfold State.consumeDraw; split <;> rfl
@[simp] theorem State.consumeDraw_dt (s : State) : s.consumeDraw.dt = s.dt := by
  unfold State.consumeDraw; split <;> rfl
@[simp] theorem State.consumeDraw_st (s : State) : s.consumeDraw.st = s.st := by
  unfold State.consumeDraw; split <;> rfl
@[simp] theorem State.consumeDraw_pix (s : State) : s.consumeDraw.pix = s.pix := by
  unfold State.consumeDraw; split <;> rfl
@[simp] theorem State.consumeDraw_key (s : State) : s.consumeDraw.key = s.key := by
  unfold State.consumeDraw; split <;> rfl
@[simp] theorem State.consumeDraw_mem (s : State) : s.consumeDraw.mem = s.mem := by
  unfold State.consumeDraw; split <;> rfl
@[simp] theorem State.consumeDraw_readV (s : State) (z : Reg) : s.consumeDraw.readV z = s.readV z := by
  unfold State.consumeDraw; split <;> rfl
@[simp] theorem State.consumeDraw_readStack (s : State) (k : Fin 16) : s.consumeDraw.readStack k = s.readStack k := by
  unfold State.consumeDraw; split <;> rfl
@[simp] theorem State.consumeDraw_readKey (s : State) (k : Fin 16) : s.consumeDraw.readKey k = s.readKey k := by
  unfold State.consumeDraw; split <;> rfl
@[simp] theorem State.consumeDraw_byteAt (s : State) (c : Nat) : s.consumeDraw.byteAt c = s.byteAt c := by
  unfold State.consumeDraw; split <;> rfl
@[simp] theorem State.consumeDraw_dataAddr (s : State) (c : Nat) : s.consumeDraw.dataAddr c = s.dataAddr c := by
  unfold State.consumeDraw; split <;> rfl

/-! ### What the changed part reads as -/

theorem State.readV_writeV (s : State) (x z : Reg) (b : Byte) :
    (s.writeV x b).readV z = if z = x then b else s.readV z := by
  simp [State.readV, State.writeV, Vector.get_eq_getElem, Vector.getElem_set, Fin.ext_iff, eq_comm]

@[simp] theorem State.readV_writeV_same (s : State) (x : Reg) (b : Byte) : (s.writeV x b).readV x = b := by
  simp [State.readV_writeV]

theorem State.readV_writeV_ne (s : State) {x z : Reg} (b : Byte) (h : z ≠ x) : (s.writeV x b).readV z = s.readV z := by
  simp [State.readV_writeV, h]

@[simp] theorem State.writeRegs_readV (s : State) (regs : Vector Byte 16) (z : Reg) :
    (s.writeRegs regs).readV z = regs.get z := rfl

/-- The flag is what `VF` holds, and the result what `V[x]` holds where `x` is another register (R110). -/
theorem State.readV_writeWithFlag (s : State) (x z : Reg) (r f : Byte) :
    (s.writeWithFlag x r f).readV z = if z = vf then f else if z = x then r else s.readV z := by
  simp [State.writeWithFlag, State.readV_writeV]

theorem State.readStack_push (s : State) (w : Word) (k : Fin 16) :
    (s.push w).readStack k = if k = s.sp + 1 then w else s.readStack k := by
  simp only [State.readStack, State.push, Vector.get_eq_getElem, Vector.getElem_set]
  by_cases h : k = s.sp + 1
  · simp [h]
  · have h' : ¬ (s.sp + 1).val = k.val := fun e => h (Fin.ext e.symm)
    simp [h, h']

@[simp] theorem State.writeKeys_readKey (s : State) (pressed : Keypad) (k : Fin 16) :
    (s.writeKeys pressed).readKey k = pressed.get k := rfl

/-- A state is unchanged by writing back its own program counter. -/
@[simp] theorem State.writePc_self (s : State) : s.writePc s.pc = s := rfl

@[simp] theorem State.writePc_writePc (s : State) (a b : Word) : (s.writePc a).writePc b = s.writePc b := rfl

end Sys2Proof.Machine
end

