-- ==== Sys2Proof/Laws/Memory.lean ====
section
/-! SUPPORT. The laws of byte memory: a read after a write, that every operation keeps the canonical form, and that canonical
memories that read alike are equal. -/

namespace Sys2Proof.Machine

@[simp] theorem Memory.read_nil (a : Nat) : Memory.read [] a = Memory.unlisted a := rfl

theorem Memory.read_cons (k : Nat) (b : Byte) (rest : Memory) (a : Nat) :
    Memory.read ((k, b) :: rest) a = if k = a then b else Memory.read rest a := rfl

/-- Below the first address a list may hold, all is unlisted. -/
theorem Memory.read_below {m : Memory} {lo a : Nat} (h : Memory.wfFrom lo m = true) (ha : a < lo) :
    Memory.read m a = Memory.unlisted a := by
  induction m generalizing lo with
  | nil => rfl
  | cons c rest ih =>
    obtain ⟨k, b⟩ := c
    simp only [Memory.wfFrom, Bool.and_eq_true, decide_eq_true_eq] at h
    rw [Memory.read_cons, if_neg (by omega)]
    exact ih h.2 (by omega)

theorem Memory.wfFrom_mono {m : Memory} {lo lo' : Nat} (h : Memory.wfFrom lo m = true) (hle : lo' ≤ lo) :
    Memory.wfFrom lo' m = true := by
  cases m with
  | nil => rfl
  | cons c rest =>
    obtain ⟨k, b⟩ := c
    simp only [Memory.wfFrom, Bool.and_eq_true, decide_eq_true_eq] at h ⊢
    exact ⟨⟨⟨by omega, h.1.1.2⟩, h.1.2⟩, h.2⟩

theorem Memory.read_consCell {rest : Memory} {a : Nat} {b : Byte} (h : Memory.wfFrom (a + 1) rest = true) (c : Nat) :
    Memory.read (Memory.consCell a b rest) c = if c = a then b else Memory.read rest c := by
  unfold Memory.consCell
  by_cases hc : c = a
  · subst hc
    split
    · rename_i hb
      simp [hb, Memory.read_below h (Nat.lt_succ_self c)]
    · simp [Memory.read_cons]
  · split
    · rfl
    · rw [Memory.read_cons, if_neg (Ne.symm hc)]

theorem Memory.wfFrom_consCell {rest : Memory} {a lo : Nat} (b : Byte) (h : Memory.wfFrom (a + 1) rest = true)
    (hlo : lo ≤ a) (ha : a < Config.memSize) : Memory.wfFrom lo (Memory.consCell a b rest) = true := by
  unfold Memory.consCell
  split
  · exact Memory.wfFrom_mono h (by omega)
  · rename_i hb
    simp [Memory.wfFrom, hlo, ha, hb, h]

theorem Memory.wfFrom_insert {m : Memory} {a lo : Nat} (b : Byte) (h : Memory.wfFrom lo m = true) (hlo : lo ≤ a)
    (ha : a < Config.memSize) : Memory.wfFrom lo (Memory.insert m a b) = true := by
  induction m generalizing lo with
  | nil => exact Memory.wfFrom_consCell b rfl hlo ha
  | cons c rest ih =>
    obtain ⟨k, d⟩ := c
    have h' := h
    simp only [Memory.wfFrom, Bool.and_eq_true, decide_eq_true_eq] at h'
    simp only [Memory.insert]
    split
    · exact Memory.wfFrom_consCell b (by simp [Memory.wfFrom, h'.1.1.2, h'.1.2, h'.2]; omega) hlo ha
    · split
      · rename_i hk
        subst hk
        exact Memory.wfFrom_consCell b h'.2 hlo ha
      · simp only [Memory.wfFrom, Bool.and_eq_true, decide_eq_true_eq]
        exact ⟨h'.1, ih h'.2 (by omega)⟩

theorem Memory.read_insert {m : Memory} {a lo : Nat} (b : Byte) (h : Memory.wfFrom lo m = true) (c : Nat) :
    Memory.read (Memory.insert m a b) c = if c = a then b else Memory.read m c := by
  induction m generalizing lo with
  | nil => exact Memory.read_consCell rfl c
  | cons d rest ih =>
    obtain ⟨k, e⟩ := d
    have h' := h
    simp only [Memory.wfFrom, Bool.and_eq_true, decide_eq_true_eq] at h'
    simp only [Memory.insert]
    split
    · exact Memory.read_consCell (by simp [Memory.wfFrom, h'.1.1.2, h'.1.2, h'.2]; omega) c
    · split
      · rename_i hk
        subst hk
        rw [Memory.read_consCell h'.2, Memory.read_cons]
        by_cases hc : c = a
        · simp [hc]
        · simp [hc, Ne.symm hc]
      · rename_i hk
        rw [Memory.read_cons, Memory.read_cons, ih h'.2]
        by_cases hkc : k = c
        · subst hkc
          simp [Ne.symm hk]
        · simp [hkc]

/-- A write keeps the canonical form. -/
theorem Memory.write_keeps_wf {m : Memory} (h : m.wf = true) (a : Nat) (b : Byte) : (m.write a b).wf = true := by
  unfold Memory.write
  split
  · exact Memory.wfFrom_insert b h (Nat.zero_le a) ‹_›
  · exact h

/-- A read after a write, for every address (R55). -/
theorem Memory.read_write {m : Memory} (h : m.wf = true) (a : Nat) (b : Byte) (c : Nat) :
    (m.write a b).read c = if c = a ∧ a < Config.memSize then b else m.read c := by
  unfold Memory.write
  split
  · rename_i ha
    rw [Memory.read_insert b h]
    simp [ha]
  · rename_i ha
    simp [ha]

/-- Writing several bytes keeps the canonical form. -/
theorem Memory.writeBytes_keeps_wf {m : Memory} (h : m.wf = true) (a : Nat) (bs : List Byte) :
    (m.writeBytes a bs).wf = true := by
  induction bs generalizing m a with
  | nil => exact h
  | cons b rest ih => exact ih (Memory.write_keeps_wf h a b) (a + 1)

/-- Outside the written range nothing changes. -/
theorem Memory.read_writeBytes_outside {m : Memory} (h : m.wf = true) {a : Nat} {bs : List Byte} {c : Nat}
    (hc : c < a ∨ a + bs.length ≤ c) : (m.writeBytes a bs).read c = m.read c := by
  induction bs generalizing m a with
  | nil => rfl
  | cons b rest ih =>
    simp only [List.length_cons] at hc
    rw [Memory.writeBytes, ih (Memory.write_keeps_wf h a b) (by omega), Memory.read_write h, if_neg (by omega)]

/-- Byte `k` of the written ones is at `a + k` (R136). -/
theorem Memory.read_writeBytes_inside {m : Memory} (h : m.wf = true) {a : Nat} {bs : List Byte} (k : Nat)
    (hk : k < bs.length) (hfit : a + bs.length ≤ Config.memSize) : (m.writeBytes a bs).read (a + k) = bs[k] := by
  induction bs generalizing m a k with
  | nil => simp at hk
  | cons b rest ih =>
    simp only [List.length_cons] at hk hfit
    rw [Memory.writeBytes]
    cases k with
    | zero =>
      rw [Memory.read_writeBytes_outside (Memory.write_keeps_wf h a b) (by omega), Memory.read_write h,
        if_pos ⟨rfl, by omega⟩]
      rfl
    | succ j =>
      have := ih (Memory.write_keeps_wf h a b) (a := a + 1) j (by omega) (by omega)
      simpa [Nat.add_assoc, Nat.add_comm 1 j] using this

theorem Memory.wfFrom_ext {m m' : Memory} {lo : Nat} (h : Memory.wfFrom lo m = true) (h' : Memory.wfFrom lo m' = true)
    (hr : ∀ a, m.read a = m'.read a) : m = m' := by
  induction m generalizing m' lo with
  | nil =>
    cases m' with
    | nil => rfl
    | cons c rest =>
      obtain ⟨k, b⟩ := c
      simp only [Memory.wfFrom, Bool.and_eq_true, decide_eq_true_eq] at h'
      have := hr k
      simp [Memory.read_cons] at this
      exact absurd this.symm h'.1.2
  | cons c rest ih =>
    obtain ⟨k, b⟩ := c
    have hw := h
    simp only [Memory.wfFrom, Bool.and_eq_true, decide_eq_true_eq] at hw
    cases m' with
    | nil =>
      have := hr k
      simp [Memory.read_cons] at this
      exact absurd this hw.1.2
    | cons c' rest' =>
      obtain ⟨k', b'⟩ := c'
      have hw' := h'
      simp only [Memory.wfFrom, Bool.and_eq_true, decide_eq_true_eq] at hw'
      have hkk : k = k' := by
        by_contra hne
        rcases Nat.lt_or_gt_of_ne hne with hlt | hlt
        · have h1 := hr k
          rw [Memory.read_cons, if_pos rfl, Memory.read_cons, if_neg (by omega),
            Memory.read_below hw'.2 (by omega)] at h1
          exact hw.1.2 h1
        · have h1 := hr k'
          rw [Memory.read_cons, if_neg (by omega), Memory.read_below hw.2 (by omega), Memory.read_cons,
            if_pos rfl] at h1
          exact hw'.1.2 h1.symm
      subst hkk
      have hb : b = b' := by simpa [Memory.read_cons] using hr k
      subst hb
      have : rest = rest' := ih hw.2 hw'.2 fun a => by
        by_cases hak : k = a
        · subst hak
          rw [Memory.read_below hw.2 (by omega), Memory.read_below hw'.2 (by omega)]
        · simpa [Memory.read_cons, hak] using hr a
      rw [this]

/-- Canonical memories that read alike at every address are equal data. -/
theorem Memory.wf_ext {m m' : Memory} (h : m.wf = true) (h' : m'.wf = true) (hr : ∀ a, m.read a = m'.read a) : m = m' :=
  Memory.wfFrom_ext h h' hr

/-- The memory of the reset state is canonical. -/
theorem Memory.reset_wf : State.reset.mem.wf = true := rfl

/-- What the stored bytes read as, and every other byte as before. -/
theorem State.byteAt_storeBytes_outside {s : State} (h : s.mem.wf = true) {a : Nat} {bs : List Byte} {c : Nat}
    (hc : c < a ∨ a + bs.length ≤ c) : (s.storeBytes a bs).byteAt c = s.byteAt c :=
  Memory.read_writeBytes_outside h hc

theorem State.byteAt_storeBytes_inside {s : State} (h : s.mem.wf = true) {a : Nat} {bs : List Byte} (k : Nat)
    (hk : k < bs.length) (hfit : a + bs.length ≤ Config.memSize) : (s.storeBytes a bs).byteAt (a + k) = bs[k] :=
  Memory.read_writeBytes_inside h k hk hfit

end Sys2Proof.Machine
end

