-- ==== Sys2Proof/Laws/Ops.lean ====
section
/-! SUPPORT. One lemma per shared operation that says once everything it can do: checks, skips, register ranges, digits, the
fetch, and the cells of the display. -/

namespace Sys2Proof.Machine

/-! ### Checks and skips -/

/-- The range check passes to what follows, or raises the one fault (20_memory.md R60). -/
theorem State.withDataRange_cases (s : State) (k : Nat) (go : Result) :
    ((k = 0 ∨ s.i.toNat + k - 1 < Config.memSize) ∧ s.withDataRange k go = go) ∨
    (k ≠ 0 ∧ Config.memSize ≤ s.i.toNat + k - 1 ∧
      s.withDataRange k go = .fault (.memoryOutOfRange .data (s.i.toNat + k - 1))) := by
  unfold State.withDataRange State.dataAddr raise
  by_cases hk : k = 0
  · exact .inl ⟨.inl hk, by simp [hk]⟩
  · have e : s.i.toNat + (k - 1) = s.i.toNat + k - 1 := by omega
    by_cases h : s.i.toNat + k - 1 < Config.memSize
    · exact .inl ⟨.inr h, by simp [e, h]⟩
    · exact .inr ⟨hk, by omega, by simp [e, h, hk]⟩

theorem State.withDataRange_ok {s : State} {k : Nat} (go : Result)
    (h : k = 0 ∨ s.i.toNat + k - 1 < Config.memSize) : s.withDataRange k go = go := by
  rcases s.withDataRange_cases k go with ⟨-, e⟩ | ⟨hk, hm, -⟩
  · exact e
  · omega

theorem State.withDataRange_fault {s : State} {k : Nat} (go : Result) (hk : k ≠ 0)
    (h : Config.memSize ≤ s.i.toNat + k - 1) :
    s.withDataRange k go = .fault (.memoryOutOfRange .data (s.i.toNat + k - 1)) := by
  rcases s.withDataRange_cases k go with ⟨h', -⟩ | ⟨-, -, e⟩
  · omega
  · exact e

theorem State.withKey_ok {s : State} {x : Reg} (go : Fin 16 → Result) (h : (s.readV x).toNat < 16) :
    s.withKey x go = go ⟨(s.readV x).toNat, h⟩ := by simp [State.withKey, h]

theorem State.withKey_fault {s : State} {x : Reg} (go : Fin 16 → Result) (h : ¬ (s.readV x).toNat < 16) :
    s.withKey x go = .fault (.keyIndexOutOfRange (s.readV x)) := by simp [State.withKey, h, raise]

theorem State.withGlyph_ok {s : State} {x : Reg} (go : Fin 16 → Result) (h : (s.readV x).toNat < 16) :
    s.withGlyph x go = go ⟨(s.readV x).toNat, h⟩ := by simp [State.withGlyph, h]

theorem State.withGlyph_fault {s : State} {x : Reg} (go : Fin 16 → Result) (h : ¬ (s.readV x).toNat < 16) :
    s.withGlyph x go = .fault (.glyphIndexOutOfRange (s.readV x)) := by simp [State.withGlyph, h, raise]

/-- A checked data access that completes passed the check and did what follows it. -/
theorem State.withDataRange_next {s t : State} {k : Nat} {go : Result} (h : s.withDataRange k go = .next t) :
    (k = 0 ∨ s.i.toNat + k - 1 < Config.memSize) ∧ go = .next t := by
  rcases s.withDataRange_cases k go with ⟨hk, e⟩ | ⟨-, -, e⟩
  · exact ⟨hk, e ▸ h⟩
  · rw [e] at h; cases h

/-- An instruction on a key number that completes had one, and did what follows. -/
theorem State.withKey_next {s t : State} {x : Reg} {go : Fin 16 → Result} (h : s.withKey x go = .next t) :
    ∃ k : Fin 16, k.val = (s.readV x).toNat ∧ go k = .next t := by
  by_cases hk : (s.readV x).toNat < 16
  · exact ⟨_, rfl, (State.withKey_ok go hk).symm.trans h⟩
  · rw [State.withKey_fault go hk] at h; cases h

/-- An instruction on a digit that completes had one, and did what follows. -/
theorem State.withGlyph_next {s t : State} {x : Reg} {go : Fin 16 → Result} (h : s.withGlyph x go = .next t) :
    ∃ d : Fin 16, d.val = (s.readV x).toNat ∧ go d = .next t := by
  by_cases hk : (s.readV x).toNat < 16
  · exact ⟨_, rfl, (State.withGlyph_ok go hk).symm.trans h⟩
  · rw [State.withGlyph_fault go hk] at h; cases h

/-- A skip always completes and changes nothing but `PC` (40_control_flow.md R100). -/
theorem skipIf_eq (cond : Bool) (s : State) :
    skipIf cond s = .next (s.writePc (if cond then s.pc + 2 else s.pc)) := by
  cases cond <;> rfl

/-! ### Operands -/

@[simp] theorem bcdDigits_length (b : Byte) : (bcdDigits b).length = 3 := rfl

@[simp] theorem State.regsThrough_length (s : State) (x : Reg) : (s.regsThrough x).length = x.val + 1 := by
  simp only [State.regsThrough, List.length_map, List.length_take, List.length_finRange]
  omega

/-- Byte `r` of the stored registers is `V[r]` (42_index_memory.md R134). -/
theorem State.regsThrough_get (s : State) (x r : Reg) (h : r.val < (s.regsThrough x).length) :
    (s.regsThrough x)[r.val] = s.readV r := by
  simp [State.regsThrough]

/-- Registers up to `x` come from memory, the others stay (42_index_memory.md R135). -/
theorem State.regsLoaded_get (s : State) (x r : Reg) :
    (s.regsLoaded x).get r = if r ≤ x then s.byteAt (s.i.toNat + r.val) else s.readV r := by
  simp [State.regsLoaded, Vector.get_eq_getElem, State.dataAddr]

/-- The least pressed key is pressed, and every lesser key is not (44_keypad_timers.md R152). -/
theorem State.lowestKey_some {s : State} {k : Fin 16} (h : s.lowestKey = some k) :
    s.readKey k = true ∧ ∀ j : Fin 16, j < k → s.readKey j = false := by
  unfold State.lowestKey at h
  rw [List.find?_eq_some_iff_getElem] at h
  obtain ⟨hk, i, hi, hik, hlt⟩ := h
  refine ⟨hk, fun j hj => ?_⟩
  have hi' : i = k.val := by
    rw [← hik]; simp
  have := hlt j.val (by omega)
  simpa [List.getElem_finRange] using this

theorem State.lowestKey_none {s : State} : s.lowestKey = none ↔ ∀ k : Fin 16, s.readKey k = false := by
  simp [State.lowestKey, List.find?_eq_none]

/-! ### Fetch -/

/-- The fetch reads the two bytes at `PC` high byte first, where both exist (20_memory.md R52, R53). -/
theorem State.fetchWord_some {s : State} (h : s.pc.toNat + 1 < Config.memSize) :
    s.fetchWord = some (wordOfBytes (s.byteAt s.pc.toNat) (s.byteAt (s.pc.toNat + 1))) := by
  simp [State.fetchWord, State.memRead2, h]

theorem State.fetchWord_none {s : State} (h : Config.memSize ≤ s.pc.toNat + 1) : s.fetchWord = none := by
  simp [State.fetchWord, State.memRead2, Nat.not_lt.mpr h]

theorem State.fetchWord_eq_some {s : State} {op : Word} (h : s.fetchWord = some op) :
    s.pc.toNat + 1 < Config.memSize ∧ op = wordOfBytes (s.byteAt s.pc.toNat) (s.byteAt (s.pc.toNat + 1)) := by
  unfold State.fetchWord State.memRead2 at h
  split at h
  · exact ⟨‹_›, (Option.some.inj h).symm⟩
  · cases h

/-! ### Display cells (43_display.md R143) -/

/-- Setting one cell sets that cell and no other. -/
theorem Display.cell_setCell (d : Display) (x x' : Fin 64) (y y' : Fin 32) (b : Bool) :
    (d.setCell x y b).cell x' y' = if x' = x ∧ y' = y then b else d.cell x' y' := by
  simp only [Display.cell, Display.setCell, Vector.get_eq_getElem, Vector.getElem_set, Fin.ext_iff]
  by_cases hx : x.val = x'.val
  · simp only [hx, if_true, true_and]
    rw [Vector.getElem_set]
    by_cases hy : y.val = y'.val <;> simp [hy, eq_comm]
  · simp [hx, Ne.symm hx]

@[simp] theorem Display.cell_clear (x : Fin 64) (y : Fin 32) : Display.clear.cell x y = false := by
  simp [Display.clear, Display.cell, Vector.get_eq_getElem]

/-- Two displays with the same cells are the same. -/
theorem Display.ext_cells {d d' : Display} (h : ∀ x y, d.cell x y = d'.cell x y) : d = d' := by
  apply Vector.ext
  intro i hi
  apply Vector.ext
  intro j hj
  exact h ⟨i, hi⟩ ⟨j, hj⟩

/-- What drawing one sprite bit does to each cell (43_display.md R141): a 1 inverts its own cell. -/
theorem drawBit_cell (cx cy : Nat) (bit : Bool) (acc : Display × Bool) (x : Fin 64) (y : Fin 32) :
    (drawBit cx cy bit acc).1.cell x y =
      (acc.1.cell x y != (bit && decide (x = wrapCol cx) && decide (y = wrapRow cy))) := by
  unfold drawBit
  cases bit
  · simp
  · simp only [if_true, Display.cell_setCell, Bool.true_and]
    by_cases h : x = wrapCol cx ∧ y = wrapRow cy
    · rw [if_pos h, h.1, h.2]; simp
    · rw [if_neg h]
      rcases not_and_or.mp h with h' | h' <;> simp [h']

/-- The collision is set by inverting a cell that is ON, and never cleared (43_display.md R141). -/
theorem drawBit_collision (cx cy : Nat) (bit : Bool) (acc : Display × Bool) :
    (drawBit cx cy bit acc).2 = (acc.2 || (bit && acc.1.cell (wrapCol cx) (wrapRow cy))) := by
  unfold drawBit
  cases bit <;> simp

end Sys2Proof.Machine
end

