-- ==== Sys2Proof/Laws/Display.lean ====
section
/-! SUPPORT. Drawing a sprite, said once: it inverts, one after another, the cells its 1 bits fall on, and no cell twice. -/

namespace Sys2Proof.Machine

/-- Inverts one cell, and records whether it was ON. -/
def Display.invertCell (acc : Display × Bool) (p : Fin 64 × Fin 32) : Display × Bool :=
  (acc.1.setCell p.1 p.2 (!acc.1.cell p.1 p.2), acc.2 || acc.1.cell p.1 p.2)

/-- The cells the 1 bits of a sprite row fall on, from the left (43_display.md R141). -/
def rowCells (ox cy : Nat) (row : Byte) : List (Fin 64 × Fin 32) :=
  ((List.range 8).filter (spriteBit row)).map fun col => (wrapCol (ox + col), wrapRow cy)

/-- The cells the 1 bits of sprite rows fall on, from the top (43_display.md R141). -/
def rowsCells (ox : Nat) : Nat → List Byte → List (Fin 64 × Fin 32)
  | _, [] => []
  | cy, row :: rest => rowCells ox cy row ++ rowsCells ox (cy + 1) rest

theorem drawRow_eq_foldl (ox cy : Nat) (row : Byte) (acc : Display × Bool) :
    drawRow ox cy row acc = (rowCells ox cy row).foldl Display.invertCell acc := by
  unfold drawRow rowCells
  rw [List.foldl_map, List.foldl_filter]
  rfl

/-- Drawing sprite rows is inverting the cells of `rowsCells`, in order. -/
theorem drawRows_eq_foldl (ox cy : Nat) (rows : List Byte) (acc : Display × Bool) :
    drawRows ox cy rows acc = (rowsCells ox cy rows).foldl Display.invertCell acc := by
  induction rows generalizing cy acc with
  | nil => rfl
  | cons r rest ih => rw [drawRows, ih, drawRow_eq_foldl, rowsCells, List.foldl_append]

theorem Display.cell_invertCell (acc : Display × Bool) (p : Fin 64 × Fin 32) (x : Fin 64) (y : Fin 32) :
    (Display.invertCell acc p).1.cell x y = if (x, y) = p then !acc.1.cell x y else acc.1.cell x y := by
  simp only [Display.invertCell, Display.cell_setCell]
  by_cases e : (x, y) = p
  · subst e; simp
  · rw [if_neg e, if_neg]
    rintro ⟨rfl, rfl⟩
    exact e rfl

/-- Inverting cells with no repeats: each cell once, and a collision exactly where one of them was ON at the start. -/
theorem Display.foldl_invertCell (L : List (Fin 64 × Fin 32)) (h : L.Nodup) (acc : Display × Bool) :
    (∀ x y, (L.foldl Display.invertCell acc).1.cell x y = (acc.1.cell x y != decide ((x, y) ∈ L))) ∧
    ((L.foldl Display.invertCell acc).2 = (acc.2 || decide (∃ p ∈ L, acc.1.cell p.1 p.2 = true))) := by
  induction L generalizing acc with
  | nil => simp
  | cons p L ih =>
    obtain ⟨hp, hL⟩ := List.nodup_cons.mp h
    obtain ⟨h1, h2⟩ := ih hL (Display.invertCell acc p)
    refine ⟨fun x y => ?_, ?_⟩
    · rw [List.foldl_cons, h1, Display.cell_invertCell]
      by_cases e : (x, y) = p
      · subst e; simp [hp]
      · simp [e]
    · have same : (∃ q ∈ L, (Display.invertCell acc p).1.cell q.1 q.2 = true) ↔ ∃ q ∈ L, acc.1.cell q.1 q.2 = true := by
        constructor <;> rintro ⟨q, hq, hv⟩ <;> refine ⟨q, hq, ?_⟩ <;>
          have hqp : (q.1, q.2) ≠ p := (fun e => hp (by rw [← e]; exact hq)) <;>
          simpa [Display.cell_invertCell, hqp] using hv
      rw [List.foldl_cons, h2]
      simp only [same]
      simp [Display.invertCell, Bool.or_assoc]

/-- Which cells the 1 bits fall on. -/
theorem mem_rowsCells (ox cy : Nat) (rows : List Byte) (x : Fin 64) (y : Fin 32) :
    (x, y) ∈ rowsCells ox cy rows ↔
      ∃ r, ∃ h : r < rows.length, ∃ c < 8, spriteBit rows[r] c = true ∧ x = wrapCol (ox + c) ∧ y = wrapRow (cy + r) := by
  induction rows generalizing cy with
  | nil => simp [rowsCells]
  | cons b rest ih =>
    rw [rowsCells, List.mem_append, ih]
    constructor
    · rintro (h | ⟨r, hr, c, hc, h1, h2, h3⟩)
      · simp only [rowCells, List.mem_map, List.mem_filter, List.mem_range, Prod.mk.injEq] at h
        obtain ⟨c, ⟨hc, hb⟩, h1, h2⟩ := h
        exact ⟨0, by simp, c, hc, by simpa using hb, h1.symm, by simpa using h2.symm⟩
      · exact ⟨r + 1, by simp; omega, c, hc, by simpa using h1, h2, by rw [h3]; congr 1; omega⟩
    · rintro ⟨r, hr, c, hc, h1, h2, h3⟩
      cases r with
      | zero =>
        left
        simp only [rowCells, List.mem_map, List.mem_filter, List.mem_range, Prod.mk.injEq]
        exact ⟨c, ⟨hc, by simpa using h1⟩, h2.symm, by simpa using h3.symm⟩
      | succ r =>
        right
        exact ⟨r, by simp at hr; omega, c, hc, by simpa using h1, h2, by rw [h3]; congr 1; omega⟩

/-- Up to 32 rows never fall on one cell twice: 8 columns are fewer than 64 (43_display.md R142). -/
theorem nodup_rowsCells (ox cy : Nat) (rows : List Byte) (h : rows.length ≤ 32) : (rowsCells ox cy rows).Nodup := by
  induction rows generalizing cy with
  | nil => exact List.nodup_nil
  | cons b rest ih =>
    simp only [List.length_cons] at h
    rw [rowsCells, List.nodup_append]
    refine ⟨?_, ih _ (by omega), ?_⟩
    · refine List.Nodup.map_on ?_ (List.Nodup.filter _ List.nodup_range)
      intro a ha b hb e
      simp [wrapCol] at ha hb e
      omega
    · rintro ⟨x, y⟩ hp q hq rfl
      simp [rowCells] at hp
      obtain ⟨c, -, -, h2⟩ := hp
      obtain ⟨r, hr, c', -, -, -, h3⟩ := (mem_rowsCells _ _ _ _ _).mp hq
      rw [← h2] at h3
      simp [wrapRow] at h3
      omega

/-- The cells the rows at `I` fall on are those of `State.spriteCovers`. -/
theorem State.mem_spriteCells (s : State) (ox oy n : Nat) (hn : n ≤ 32) (x : Fin 64) (y : Fin 32) :
    (x, y) ∈ rowsCells ox oy (s.spriteRows n) ↔ s.spriteCovers ox oy n x y = true := by
  have hx := x.isLt
  have hy := y.isLt
  rw [mem_rowsCells]
  simp only [State.spriteCovers, Bool.and_eq_true, decide_eq_true_eq, State.spriteRows, List.length_map, List.length_range,
    List.getElem_map, List.getElem_range, spriteBit, State.dataAddr, Fin.ext_iff, wrapCol, wrapRow]
  constructor
  · rintro ⟨r, hr, c, hc, hb, h1, h2⟩
    have e1 : (x.val + 64 - ox % 64) % 64 = c := by omega
    have e2 : (y.val + 32 - oy % 32) % 32 = r := by omega
    rw [e1, e2]
    exact ⟨⟨hc, hr⟩, hb⟩
  · rintro ⟨⟨hc, hr⟩, hb⟩
    exact ⟨_, hr, _, hc, hb, by omega, by omega⟩

end Sys2Proof.Machine
end

