-- ==== Sys2Proof/Laws/PerInstr.lean ====
section
/-! SUPPORT. The per-instruction family `MatchesTableRow`: the word of an instruction has its row's fixed bits, the columns
"mask" and "match" of spec/opcode_table.json. -/

namespace Sys2Proof.Laws.MatchesTableRow

/-- The word of the instruction, under the mask of its format, is the match of its row (30_encoding.md R75 to R79). -/
def Statement (i : Instr) : Prop := encode i &&& i.format.mask = i.pattern

theorem append_and_append {n m : Nat} (a a' : BitVec n) (b b' : BitVec m) :
    (a ++ b) &&& (a' ++ b') = (a &&& a') ++ (b &&& b') := by
  ext k hk
  simp only [BitVec.getElem_and, BitVec.getElem_append]
  split <;> simp

/-- Packing and masking commute, field by field. -/
theorem packNNN_and (hi hi' : Nibble) (a b : Addr12) : packNNN hi a &&& packNNN hi' b = packNNN (hi &&& hi') (a &&& b) :=
  append_and_append hi hi' a b

theorem packXKK_and (hi hi' : Nibble) (x : Reg) (kk kk' : Byte) :
    packXKK hi x kk &&& packXKK hi' 0 kk' = packXKK (hi &&& hi') 0 (kk &&& kk') := by
  have low : ((BitVec.ofFin x : Nibble) ++ kk : BitVec (4 + 8)) &&& ((BitVec.ofFin 0 : Nibble) ++ kk') =
      (BitVec.ofFin 0 : Nibble) ++ (kk &&& kk') := by
    rw [append_and_append, show (BitVec.ofFin x : Nibble) &&& BitVec.ofFin 0 = BitVec.ofFin 0 from BitVec.and_zero]
  simp only [packXKK, packNNN_and]
  exact congrArg (packNNN (hi &&& hi')) low

theorem packXYN_and (hi hi' : Nibble) (x y : Reg) (n n' : Nibble) :
    packXYN hi x y n &&& packXYN hi' 0 0 n' = packXYN (hi &&& hi') 0 0 (n &&& n') := by
  have low : ((BitVec.ofFin y : Nibble) ++ n : BitVec (4 + 4)) &&& ((BitVec.ofFin 0 : Nibble) ++ n') =
      (BitVec.ofFin 0 : Nibble) ++ (n &&& n') := by
    rw [append_and_append, show (BitVec.ofFin y : Nibble) &&& BitVec.ofFin 0 = BitVec.ofFin 0 from BitVec.and_zero]
  simp only [packXYN, packXKK_and]
  exact congrArg (packXKK (hi &&& hi') 0) low

theorem hi_masked (hi : Nibble) : hi &&& 0xF = hi := BitVec.and_allOnes

/-- A word of format `NNN` under its mask. -/
theorem packNNN_masked (hi : Nibble) (nnn : Addr12) : packNNN hi nnn &&& 0xF000 = packNNN hi 0 := by
  rw [show (0xF000 : Word) = packNNN 0xF 0 by decide, packNNN_and, show nnn &&& 0 = 0 from BitVec.and_zero,
    hi_masked]

/-- A word of format `XKK` under its mask. -/
theorem packXKK_masked (hi : Nibble) (x : Reg) (kk : Byte) : packXKK hi x kk &&& 0xF000 = packXKK hi 0 0 := by
  rw [show (0xF000 : Word) = packXKK 0xF 0 0 by decide, packXKK_and, show kk &&& 0 = 0 from BitVec.and_zero,
    hi_masked]

/-- A word of format `X` under its mask. -/
theorem packX_masked (hi : Nibble) (x : Reg) (kk : Byte) : packXKK hi x kk &&& 0xF0FF = packXKK hi 0 kk := by
  rw [show (0xF0FF : Word) = packXKK 0xF 0 0xFF by decide, packXKK_and, show (0xFF : Byte) = BitVec.allOnes 8 from rfl,
    show (0xF : Nibble) = BitVec.allOnes 4 from rfl, BitVec.and_allOnes, BitVec.and_allOnes]

/-- A word of format `XYN` under its mask. -/
theorem packXYN_masked (hi : Nibble) (x y : Reg) (n : Nibble) : packXYN hi x y n &&& 0xF000 = packXYN hi 0 0 0 := by
  rw [show (0xF000 : Word) = packXYN 0xF 0 0 0 by decide, packXYN_and, show n &&& 0 = 0 from BitVec.and_zero,
    hi_masked]

/-- A word of format `XY` under its mask. -/
theorem packXY_masked (hi : Nibble) (x y : Reg) (n : Nibble) : packXYN hi x y n &&& 0xF00F = packXYN hi 0 0 n := by
  rw [show (0xF00F : Word) = packXYN 0xF 0 0 0xF by decide, packXYN_and, show (0xF : Nibble) = BitVec.allOnes 4 from rfl,
    BitVec.and_allOnes, BitVec.and_allOnes]

theorem cls : Statement .cls := rfl
theorem ret : Statement .ret := rfl
theorem sys (nnn : Addr12) : Statement (.sys nnn) := (packNNN_masked _ nnn).trans rfl
theorem jp (nnn : Addr12) : Statement (.jp nnn) := (packNNN_masked _ nnn).trans rfl
theorem call (nnn : Addr12) : Statement (.call nnn) := (packNNN_masked _ nnn).trans rfl
theorem seImm (x : Reg) (kk : Byte) : Statement (.seImm x kk) := (packXKK_masked _ x kk).trans rfl
theorem sneImm (x : Reg) (kk : Byte) : Statement (.sneImm x kk) := (packXKK_masked _ x kk).trans rfl
theorem seReg (x : Reg) (y : Reg) : Statement (.seReg x y) := (packXY_masked _ x y _).trans rfl
theorem ldImm (x : Reg) (kk : Byte) : Statement (.ldImm x kk) := (packXKK_masked _ x kk).trans rfl
theorem addImm (x : Reg) (kk : Byte) : Statement (.addImm x kk) := (packXKK_masked _ x kk).trans rfl
theorem ldReg (x : Reg) (y : Reg) : Statement (.ldReg x y) := (packXY_masked _ x y _).trans rfl
theorem orReg (x : Reg) (y : Reg) : Statement (.orReg x y) := (packXY_masked _ x y _).trans rfl
theorem andReg (x : Reg) (y : Reg) : Statement (.andReg x y) := (packXY_masked _ x y _).trans rfl
theorem xorReg (x : Reg) (y : Reg) : Statement (.xorReg x y) := (packXY_masked _ x y _).trans rfl
theorem addReg (x : Reg) (y : Reg) : Statement (.addReg x y) := (packXY_masked _ x y _).trans rfl
theorem sub (x : Reg) (y : Reg) : Statement (.sub x y) := (packXY_masked _ x y _).trans rfl
theorem shr (x : Reg) (y : Reg) : Statement (.shr x y) := (packXY_masked _ x y _).trans rfl
theorem subn (x : Reg) (y : Reg) : Statement (.subn x y) := (packXY_masked _ x y _).trans rfl
theorem shl (x : Reg) (y : Reg) : Statement (.shl x y) := (packXY_masked _ x y _).trans rfl
theorem sneReg (x : Reg) (y : Reg) : Statement (.sneReg x y) := (packXY_masked _ x y _).trans rfl
theorem ldI (nnn : Addr12) : Statement (.ldI nnn) := (packNNN_masked _ nnn).trans rfl
theorem jpV0 (nnn : Addr12) : Statement (.jpV0 nnn) := (packNNN_masked _ nnn).trans rfl
theorem rnd (x : Reg) (kk : Byte) : Statement (.rnd x kk) := (packXKK_masked _ x kk).trans rfl
theorem drw (x : Reg) (y : Reg) (n : Nibble) : Statement (.drw x y n) := (packXYN_masked _ x y n).trans rfl
theorem skp (x : Reg) : Statement (.skp x) := (packX_masked _ x _).trans rfl
theorem sknp (x : Reg) : Statement (.sknp x) := (packX_masked _ x _).trans rfl
theorem ldVxDT (x : Reg) : Statement (.ldVxDT x) := (packX_masked _ x _).trans rfl
theorem ldVxK (x : Reg) : Statement (.ldVxK x) := (packX_masked _ x _).trans rfl
theorem ldDTVx (x : Reg) : Statement (.ldDTVx x) := (packX_masked _ x _).trans rfl
theorem ldSTVx (x : Reg) : Statement (.ldSTVx x) := (packX_masked _ x _).trans rfl
theorem addIVx (x : Reg) : Statement (.addIVx x) := (packX_masked _ x _).trans rfl
theorem ldFVx (x : Reg) : Statement (.ldFVx x) := (packX_masked _ x _).trans rfl
theorem ldBVx (x : Reg) : Statement (.ldBVx x) := (packX_masked _ x _).trans rfl
theorem ldMemVx (x : Reg) : Statement (.ldMemVx x) := (packX_masked _ x _).trans rfl
theorem ldVxMem (x : Reg) : Statement (.ldVxMem x) := (packX_masked _ x _).trans rfl

end Sys2Proof.Laws.MatchesTableRow
end

