-- ==== Sys2Proof/Laws/Step.lean ====
section
/-! SUPPORT. What a step can do, said once: it faults at the fetch, fails to decode, or is the instruction's own answer. -/

namespace Sys2Proof.Machine

/-- The three ways a step goes (40_control_flow.md R90). -/
theorem step_cases (s : State) :
    (Config.memSize ≤ s.pc.toNat + 1 ∧ step s = .fault (.memoryOutOfRange .fetch s.pc.toNat)) ∨
    (∃ op, s.fetchWord = some op ∧ (∃ e, decode op = .error e) ∧ step s = .fault (.decodeFailure op)) ∨
    (∃ op i, s.fetchWord = some op ∧ decode op = .ok i ∧ step s = exec i s.advance) := by
  by_cases h : s.pc.toNat + 1 < Config.memSize
  · have hf := State.fetchWord_some h
    cases hd : decode (wordOfBytes (s.byteAt s.pc.toNat) (s.byteAt (s.pc.toNat + 1))) with
    | error e => exact .inr (.inl ⟨_, hf, ⟨e, hd⟩, by simp [step, hf, hd, raise]⟩)
    | ok i => exact .inr (.inr ⟨_, i, hf, hd, by simp [step, hf, hd]⟩)
  · exact .inl ⟨by omega, by simp [step, State.fetchWord_none (Nat.not_lt.mp h), raise]⟩

/-- A step that answers a next state ran an instruction. -/
theorem step_next {s t : State} (h : step s = .next t) :
    ∃ op i, s.fetchWord = some op ∧ decode op = .ok i ∧ exec i s.advance = .next t := by
  rcases step_cases s with ⟨-, e⟩ | ⟨op, -, -, e⟩ | ⟨op, i, hf, hd, e⟩
  · rw [e] at h; cases h
  · rw [e] at h; cases h
  · exact ⟨op, i, hf, hd, by rw [← e]; exact h⟩

/-- Where both bytes at `PC` exist, the word placed by `withFetchWord` is what the step fetches (log 7). -/
theorem State.withFetchWord_fetches {s : State} (hwf : s.mem.wf = true) (hpc : s.pc.toNat + 1 < Config.memSize)
    (nbits w : Nat) : (s.withFetchWord nbits w).fetchWord = some (BitVec.ofNat 16 (w % 2 ^ nbits)) := by
  have e : (s.withFetchWord nbits w).pc = s.pc := rfl
  rw [State.fetchWord_some (by rw [e]; exact hpc), e]
  have h0 := State.byteAt_storeBytes_inside hwf (a := s.pc.toNat)
    (bs := [highByte (BitVec.ofNat 16 (w % 2 ^ nbits)), lowByte (BitVec.ofNat 16 (w % 2 ^ nbits))]) 0 (by simp)
    (by simp; omega)
  have h1 := State.byteAt_storeBytes_inside hwf (a := s.pc.toNat)
    (bs := [highByte (BitVec.ofNat 16 (w % 2 ^ nbits)), lowByte (BitVec.ofNat 16 (w % 2 ^ nbits))]) 1 (by simp)
    (by simp; omega)
  simp only [Nat.add_zero] at h0
  unfold State.withFetchWord
  rw [h0, h1]
  simp

end Sys2Proof.Machine
end

