-- ==== Sys2Proof/Machine/Assembler.lean ====
section
/-! DEFINITION. The assembler text of an instruction (30_encoding.md R80): mnemonic, then operands, destination first. No meaning
depends on it. The names are the spec's own, from general knowledge (93_implementation_defined.md; log 27). -/

namespace Sys2Proof

/-- One hexadecimal digit. -/
def hexDigit (d : Fin 16) : String := String.singleton ("0123456789ABCDEF".toList.getD d.val '0')

/-- The low `digits` hexadecimal digits of a number, high digit first. -/
def hexDigits : Nat → Nat → String
  | 0, _ => ""
  | digits + 1, w => hexDigits digits (w / 16) ++ hexDigit (Fin.ofNat 16 w)

/-- `Vx`, with `x` one hexadecimal digit. -/
def asmReg (x : Reg) : String := "V" ++ hexDigit x

/-- An address operand. -/
def asmAddr (nnn : Addr12) : String := "0x" ++ hexDigits 3 nnn.toNat

/-- A byte operand. -/
def asmByte (kk : Byte) : String := "0x" ++ hexDigits 2 kk.toNat

/-- A row count. -/
def asmCount (n : Nibble) : String := "0x" ++ hexDigits 1 n.toNat

/-- A mnemonic with two operands. -/
def asmTwo (mnemonic first second : String) : String := mnemonic ++ " " ++ first ++ ", " ++ second

/-- A shift: the second operand is written where it sets the ignored `y` field to other than 0. -/
def asmShift (mnemonic : String) (x y : Reg) : String :=
  if y = 0 then mnemonic ++ " " ++ asmReg x else asmTwo mnemonic (asmReg x) (asmReg y)

/-- The assembler text of an instruction (R80). -/
def Instr.asm : Instr → String
  | .cls => "CLS"
  | .ret => "RET"
  | .sys nnn => "SYS " ++ asmAddr nnn
  | .jp nnn => "JP " ++ asmAddr nnn
  | .call nnn => "CALL " ++ asmAddr nnn
  | .seImm x kk => asmTwo "SE" (asmReg x) (asmByte kk)
  | .sneImm x kk => asmTwo "SNE" (asmReg x) (asmByte kk)
  | .seReg x y => asmTwo "SE" (asmReg x) (asmReg y)
  | .ldImm x kk => asmTwo "LD" (asmReg x) (asmByte kk)
  | .addImm x kk => asmTwo "ADD" (asmReg x) (asmByte kk)
  | .ldReg x y => asmTwo "LD" (asmReg x) (asmReg y)
  | .orReg x y => asmTwo "OR" (asmReg x) (asmReg y)
  | .andReg x y => asmTwo "AND" (asmReg x) (asmReg y)
  | .xorReg x y => asmTwo "XOR" (asmReg x) (asmReg y)
  | .addReg x y => asmTwo "ADD" (asmReg x) (asmReg y)
  | .sub x y => asmTwo "SUB" (asmReg x) (asmReg y)
  | .shr x y => asmShift "SHR" x y
  | .subn x y => asmTwo "SUBN" (asmReg x) (asmReg y)
  | .shl x y => asmShift "SHL" x y
  | .sneReg x y => asmTwo "SNE" (asmReg x) (asmReg y)
  | .ldI nnn => asmTwo "LD" "I" (asmAddr nnn)
  | .jpV0 nnn => asmTwo "JP" "V0" (asmAddr nnn)
  | .rnd x kk => asmTwo "RND" (asmReg x) (asmByte kk)
  | .drw x y n => asmTwo "DRW" (asmReg x) (asmReg y) ++ ", " ++ asmCount n
  | .skp x => "SKP " ++ asmReg x
  | .sknp x => "SKNP " ++ asmReg x
  | .ldVxDT x => asmTwo "LD" (asmReg x) "DT"
  | .ldVxK x => asmTwo "LD" (asmReg x) "K"
  | .ldDTVx x => asmTwo "LD" "DT" (asmReg x)
  | .ldSTVx x => asmTwo "LD" "ST" (asmReg x)
  | .addIVx x => asmTwo "ADD" "I" (asmReg x)
  | .ldFVx x => asmTwo "LD" "F" (asmReg x)
  | .ldBVx x => asmTwo "LD" "B" (asmReg x)
  | .ldMemVx x => asmTwo "LD" "[I]" (asmReg x)
  | .ldVxMem x => asmTwo "LD" (asmReg x) "[I]"

end Sys2Proof
end

