-- ==== Sys2Proof/Tests/Slice0.lean ====
section
/-! SUPPORT. The model's own tests. Expected values are those of spec/95_test_vectors.md (the id or section stands at each test)
and words written out bit by bit from the patterns of 30_encoding.md R75 to R79; then one witness for the hypotheses of each
statement of Obligations.lean, at a boundary of each clause. -/

namespace Sys2Proof.Tests

open Sys2Proof Sys2Proof.Machine

/-! ### Helpers -/

/-- The reset state with some registers set. -/
def withRegs (regs : List (Reg × Byte)) : State := regs.foldl (fun s p => s.writeV p.1 p.2) State.reset

/-- One host step of the word `w` at `PC`, with the draw 0xA7. -/
def stepWord (w : Nat) (s : State) : State × StepReply := hostStep 0xA7 (s.withFetchWord 16 w)

/-- `V[x]` and `VF` after one step of the word `w`. -/
def resultAndFlag (w : Nat) (s : State) (x : Reg) : Byte × Byte :=
  ((stepWord w s).1.readV x, (stepWord w s).1.readV 15)

/-- `PC` and the reply after one step of the word `w`. -/
def pcAndReply (w : Nat) (s : State) : Nat × StepReply := ((stepWord w s).1.pc.toNat, (stepWord w s).2)

/-- The bytes at `a` and up after one step of the word `w`. -/
def bytesAfter (w : Nat) (s : State) (a n : Nat) : List Byte :=
  (List.range n).map fun k => (stepWord w s).1.byteAt (a + k)

/-- A keypad with some keys pressed. -/
def pressing (keys : List (Fin 16)) : Keypad := Vector.ofFn fun k => decide (k ∈ keys)

/-! ### Well-formedness: the one check, with ill-formed terms it refuses -/

theorem test_wellFormed_sys_not_cls : (Instr.sys 0x0E0).wellFormed = false := by decide
theorem test_wellFormed_sys_not_ret : (Instr.sys 0x0EE).wellFormed = false := by decide
theorem test_wellFormed_sys : (Instr.sys 0x123).wellFormed = true ∧ (Instr.sys 0x1E0).wellFormed = true := by decide

/-! ### Decoding: every constructor, from a word written out bit by bit (R75 to R79) -/

theorem test_decode_family0 :
    decode 0b0000_0000_1110_0000 = .ok .cls ∧ decode 0b0000_0000_1110_1110 = .ok .ret ∧
    decode 0b0000_0001_0010_0011 = .ok (.sys 0x123) := by decide
theorem test_decode_jumps :
    decode 0b0001_0010_0011_0100 = .ok (.jp 0x234) ∧ decode 0b0010_0011_0000_0001 = .ok (.call 0x301) ∧
    decode 0b1011_1111_1111_1110 = .ok (.jpV0 0xFFE) := by decide
theorem test_decode_skips :
    decode 0b0011_0011_0010_1010 = .ok (.seImm 3 0x2A) ∧ decode 0b0100_0011_0010_1010 = .ok (.sneImm 3 0x2A) ∧
    decode 0b0101_1010_1011_0000 = .ok (.seReg 10 11) ∧ decode 0b1001_1010_1011_0000 = .ok (.sneReg 10 11) := by decide
theorem test_decode_immediates :
    decode 0b0110_1010_0010_1111 = .ok (.ldImm 10 0x2F) ∧ decode 0b0111_0001_0010_0000 = .ok (.addImm 1 0x20) ∧
    decode 0b1010_0010_1111_0000 = .ok (.ldI 0x2F0) ∧ decode 0b1100_0011_0000_1111 = .ok (.rnd 3 0x0F) := by decide
theorem test_decode_family8_low :
    decode 0b1000_0001_0010_0000 = .ok (.ldReg 1 2) ∧ decode 0b1000_0001_0010_0001 = .ok (.orReg 1 2) ∧
    decode 0b1000_0001_0010_0010 = .ok (.andReg 1 2) ∧ decode 0b1000_0001_0010_0011 = .ok (.xorReg 1 2) ∧
    decode 0b1000_0001_0010_0100 = .ok (.addReg 1 2) := by decide
theorem test_decode_family8_high :
    decode 0b1000_0001_0010_0101 = .ok (.sub 1 2) ∧ decode 0b1000_0001_0010_0110 = .ok (.shr 1 2) ∧
    decode 0b1000_1010_1011_0111 = .ok (.subn 10 11) ∧ decode 0b1000_1010_1011_1110 = .ok (.shl 10 11) := by decide
theorem test_decode_draw_and_keys :
    decode 0b1101_0001_0010_0101 = .ok (.drw 1 2 5) ∧ decode 0b1110_0101_1001_1110 = .ok (.skp 5) ∧
    decode 0b1110_1111_1010_0001 = .ok (.sknp 15) := by decide
theorem test_decode_familyF_timers :
    decode 0b1111_0010_0000_0111 = .ok (.ldVxDT 2) ∧ decode 0b1111_0001_0000_1010 = .ok (.ldVxK 1) ∧
    decode 0b1111_0010_0001_0101 = .ok (.ldDTVx 2) ∧ decode 0b1111_0010_0001_1000 = .ok (.ldSTVx 2) := by decide
theorem test_decode_familyF_memory :
    decode 0b1111_0010_0001_1110 = .ok (.addIVx 2) ∧ decode 0b1111_0100_0010_1001 = .ok (.ldFVx 4) ∧
    decode 0b1111_0000_0011_0011 = .ok (.ldBVx 0) ∧ decode 0b1111_0010_0101_0101 = .ok (.ldMemVx 2) ∧
    decode 0b1111_1111_0110_0101 = .ok (.ldVxMem 15) := by decide
/-- 95_test_vectors.md 2.1, the failing words. -/
theorem test_decode_failures :
    [0x0000, 0x00E1, 0x01E0, 0x0FFF, 0x5AB1, 0x5ABF, 0x9AB8, 0x8AB8, 0x8ABD, 0x8ABF, 0xE09F, 0xE0A0, 0xE000, 0xF000,
      0xF075, 0xF085, 0xF0FF, 0x00FD, 0x00C1, 0x00FB].all
      (fun w => decide (decodeVerdict w = .error (.noMatch w))) = true := by decide
theorem test_decodeBytes_truncated :
    decodeBytes [0x12] = .error (.truncated 1) ∧ decodeBytes [0x12, 0x34, 0x56] = .ok (.jp 0x234, [0x56]) := by decide
theorem test_decodeTableWord :
    decodeTableWord 16 0xD125 = some (.drw 1 2 5) ∧ decodeTableWord 16 0x5121 = none := by decide

/-- Lines of the listings of 95_test_vectors.md part 3. -/
theorem test_asm :
    (Instr.drw 1 2 5).asm = "DRW V1, V2, 0x5" ∧ (Instr.ldVxMem 2).asm = "LD V2, [I]" ∧ (Instr.jp 0x20C).asm = "JP 0x20C" ∧
    (Instr.shr 1 0).asm = "SHR V1" := by decide

/-! ### Control flow (95_test_vectors.md 2.2) -/

theorem test_jp : pcAndReply 0x1234 State.reset = (0x234, .ok) := by decide
theorem test_jp_self : stepWord 0x1200 State.reset = (State.reset.withFetchWord 16 0x1200, .ok) := by decide
theorem test_call :
    let t := (stepWord 0x2300 State.reset).1
    t.sp = 1 ∧ t.readStack 1 = 0x202 ∧ t.readStack 0 = 0 ∧ t.pc = 0x300 := by decide
theorem test_call_overflow :
    let r := stepWord 0x2300 { State.reset with sp := 15 }
    r.2 = .fault (.stackOverflow 15) ∧ r.1.sp = 15 ∧ r.1.stack = State.reset.stack ∧ r.1.pc = 0x202 := by decide
theorem test_ret :
    let t := (stepWord 0x00EE { (State.reset.push 0x202) with pc := 0x300 }).1
    t.pc = 0x202 ∧ t.sp = 0 ∧ t.readStack 1 = 0x202 := by decide
theorem test_ret_underflow : pcAndReply 0x00EE State.reset = (0x202, .fault .stackUnderflow) := by decide
theorem test_seImm :
    pcAndReply 0x332A (withRegs [(3, 0x2A)]) = (0x204, .ok) ∧ pcAndReply 0x332A (withRegs [(3, 0x2B)]) = (0x202, .ok) := by
  decide
theorem test_sneImm :
    pcAndReply 0x432A (withRegs [(3, 0x2A)]) = (0x202, .ok) ∧ pcAndReply 0x432A State.reset = (0x204, .ok) := by decide
theorem test_seReg :
    pcAndReply 0x5120 (withRegs [(1, 7), (2, 7)]) = (0x204, .ok) ∧
    pcAndReply 0x5120 (withRegs [(1, 7), (2, 8)]) = (0x202, .ok) := by decide
theorem test_sneReg :
    pcAndReply 0x9120 (withRegs [(1, 7), (2, 8)]) = (0x204, .ok) ∧ pcAndReply 0x9110 (withRegs [(1, 7)]) = (0x202, .ok) := by
  decide
theorem test_jpV0 : pcAndReply 0xB300 (withRegs [(0, 0x10), (3, 0x80)]) = (0x310, .ok) := by decide
theorem test_jpV0_not_masked : pcAndReply 0xBFFF (withRegs [(0, 0xFF)]) = (0x10FE, .ok) := by decide
theorem test_sys : pcAndReply 0x0123 State.reset = (0x202, .fault (.decodeFailure 0x0123)) := by decide
theorem test_skip_at_top : pcAndReply 0x3005 { withRegs [(0, 5)] with pc := 0xFFC } = (0x1000, .ok) := by decide

/-! ### Load, arithmetic, logic, shift, random (95_test_vectors.md 2.3) -/

theorem test_ldImm : (stepWord 0x6A2F State.reset).1.readV 10 = 0x2F ∧ resultAndFlag 0x6F00 (withRegs [(15, 1)]) 15 = (0, 0) := by
  decide
theorem test_addImm :
    resultAndFlag 0x7120 (withRegs [(1, 0xF0)]) 1 = (0x10, 0) ∧
    resultAndFlag 0x7101 (withRegs [(1, 0xFF), (15, 1)]) 1 = (0x00, 1) := by decide
theorem test_ldReg : (stepWord 0x8120 (withRegs [(2, 9)])).1.readV 1 = 9 := by decide
theorem test_or : resultAndFlag 0x8121 (withRegs [(1, 0x0C), (2, 0x0A), (15, 1)]) 1 = (0x0E, 1) := by decide
theorem test_and : resultAndFlag 0x8122 (withRegs [(1, 0x0C), (2, 0x0A), (15, 1)]) 1 = (0x08, 1) := by decide
theorem test_xor : resultAndFlag 0x8123 (withRegs [(1, 0x0C), (2, 0x0A), (15, 1)]) 1 = (0x06, 1) := by decide
theorem test_addReg :
    resultAndFlag 0x8124 (withRegs [(1, 0xF0), (2, 0x20)]) 1 = (0x10, 1) ∧
    resultAndFlag 0x8124 (withRegs [(1, 0x80), (2, 0x7F)]) 1 = (0xFF, 0) := by decide
theorem test_addReg_flag_operand :
    resultAndFlag 0x8F14 (withRegs [(15, 3), (1, 4)]) 15 = (0, 0) ∧
    resultAndFlag 0x81F4 (withRegs [(1, 0x10), (15, 1)]) 1 = (0x11, 0) := by decide
theorem test_sub :
    resultAndFlag 0x8125 (withRegs [(1, 0x10), (2, 0x20)]) 1 = (0xF0, 0) ∧
    resultAndFlag 0x8125 (withRegs [(1, 0x05), (2, 0x05)]) 1 = (0x00, 0) ∧
    resultAndFlag 0x8125 (withRegs [(1, 0x80), (2, 0x7F)]) 1 = (0x01, 1) := by decide
theorem test_sub_flag_destination : resultAndFlag 0x8F15 (withRegs [(15, 5), (1, 3)]) 15 = (1, 1) := by decide
theorem test_subn :
    resultAndFlag 0x8127 (withRegs [(1, 0x10), (2, 0x20)]) 1 = (0x10, 1) ∧
    resultAndFlag 0x8127 (withRegs [(1, 0xFF), (2, 0x00)]) 1 = (0x01, 0) := by decide
theorem test_shr :
    resultAndFlag 0x8126 (withRegs [(1, 0x03), (2, 0xAA)]) 1 = (0x01, 1) ∧
    resultAndFlag 0x8126 (withRegs [(1, 0x80), (2, 0xFF)]) 1 = (0x40, 0) := by decide
theorem test_shl :
    resultAndFlag 0x812E (withRegs [(1, 0x81), (2, 0xAA)]) 1 = (0x02, 1) ∧
    resultAndFlag 0x812E (withRegs [(1, 0x40), (2, 0xAA)]) 1 = (0x80, 0) := by decide
theorem test_rnd :
    resultAndFlag 0xC30F (withRegs [(15, 9)]) 3 = (0x07, 9) ∧ (stepWord 0xC3FF State.reset).1.readV 3 = 0xA7 := by decide

/-! ### Index and memory (95_test_vectors.md 2.4) -/

theorem test_ldI : (stepWord 0xAFFF State.reset).1.i = 0x0FFF := by decide
theorem test_addIVx :
    (stepWord 0xF21E { withRegs [(2, 1)] with i := 0x0FFF }).1.i = 0x1000 ∧
    (stepWord 0xF21E { withRegs [(2, 1)] with i := 0xFFFF }).1.i = 0x0000 := by decide
theorem test_ldFVx :
    (stepWord 0xF429 (withRegs [(4, 0xA)])).1.i = 0x082 ∧ (stepWord 0xF429 (withRegs [(4, 0xF)])).1.i = 0x09B := by decide
theorem test_ldFVx_fault :
    (stepWord 0xF429 (withRegs [(4, 0x10)])).2 = .fault (.glyphIndexOutOfRange 0x10) ∧
    (stepWord 0xF429 (withRegs [(4, 0x10)])).1.i = 0 := by decide
theorem test_ldBVx :
    bytesAfter 0xF033 { withRegs [(0, 234)] with i := 0x300 } 0x300 3 = [2, 3, 4] ∧
    bytesAfter 0xF033 { withRegs [(0, 9)] with i := 0xFFC } 0xFFC 3 = [0, 0, 9] := by decide
theorem test_ldBVx_fault :
    (stepWord 0xF033 { withRegs [(0, 9)] with i := 0xFFD }).2 = .fault (.memoryOutOfRange .data 0xFFF) ∧
    bytesAfter 0xF033 { withRegs [(0, 9)] with i := 0xFFD } 0xFFD 2 = [0, 0] := by decide
theorem test_ldMemVx :
    bytesAfter 0xF255 { withRegs [(0, 1), (1, 2), (2, 3), (3, 4)] with i := 0x300 } 0x300 4 = [1, 2, 3, 0] := by decide
theorem test_ldMemVx_faults :
    (stepWord 0xFF55 { State.reset with i := 0xFF0 }).2 = .fault (.memoryOutOfRange .data 0xFFF) ∧
    (stepWord 0xF155 { State.reset with i := 0xFFFF }).2 = .fault (.memoryOutOfRange .data 0x10000) := by decide
theorem test_ldVxMem :
    let t := (stepWord 0xF165 { (withRegs [(2, 0x55)]).storeBytes 0x300 [0xAA, 0xBB] with i := 0x300 }).1
    t.readV 0 = 0xAA ∧ t.readV 1 = 0xBB ∧ t.readV 2 = 0x55 := by decide
theorem test_ldVxMem_glyph :
    let t := (stepWord 0xF465 { State.reset with i := 0x050 }).1
    t.readV 0 = 0xF0 ∧ t.readV 1 = 0x90 ∧ t.readV 4 = 0xF0 ∧ t.i = 0x050 := by decide

/-! ### Display (95_test_vectors.md 2.5) -/

/-- The ON cells of a display, as (column, row). -/
def onCells (d : Display) : List (Nat × Nat) :=
  (List.finRange 64).flatMap fun x => ((List.finRange 32).filter fun y => d.cell x y).map fun y => (x.val, y.val)

/-- A state whose sprite bytes at 0x300 are `bytes`, `I` there and `V[0]`, `V[1]` the origin. -/
def sprite (bytes : List Byte) (ox oy : Byte) : State :=
  { (withRegs [(0, ox), (1, oy)]).storeBytes 0x300 bytes with i := 0x300 }

theorem test_cls :
    let t := (stepWord 0x00E0 { withRegs [(15, 1)] with pix := Display.clear.setCell 5 6 true }).1
    onCells t.pix = [] ∧ t.readV 15 = 1 := by decide
theorem test_drw_wraps : onCells (stepWord 0xD011 (sprite [0xFF] 60 31)).1.pix =
    [(0, 31), (1, 31), (2, 31), (3, 31), (60, 31), (61, 31), (62, 31), (63, 31)] := by decide
theorem test_drw_erases :
    let t := (stepWord 0xD011 { sprite [0xC0] 0 0 with pix := Display.clear.setCell 0 0 true }).1
    onCells t.pix = [(1, 0)] ∧ t.readV 15 = 1 := by decide

/-! ### Keypad and timers (95_test_vectors.md 2.6) -/

theorem test_skp :
    pcAndReply 0xE59E (setKeypad (pressing [10]) (withRegs [(5, 0xA)])) = (0x204, .ok) ∧
    pcAndReply 0xE59E (setKeypad (pressing [10]) (withRegs [(5, 0x1A)])) = (0x202, .fault (.keyIndexOutOfRange 0x1A)) := by
  decide
theorem test_sknp :
    pcAndReply 0xE5A1 (setKeypad (pressing [10]) (withRegs [(5, 0xA)])) = (0x202, .ok) ∧
    pcAndReply 0xE5A1 State.reset = (0x204, .ok) := by decide
theorem test_ldVxK :
    let t := (stepWord 0xF10A (setKeypad (pressing [3, 7]) State.reset)).1
    t.readV 1 = 3 ∧ t.pc = 0x202 := by decide
theorem test_ldVxK_waits : pcAndReply 0xF10A (withRegs [(1, 9)]) = (0x200, .ok) := by decide
theorem test_ldVxDT : (stepWord 0xF207 { State.reset with dt := 0x3C }).1.readV 2 = 0x3C := by decide
theorem test_ldDTVx : (stepWord 0xF215 (withRegs [(2, 60)])).1.dt = 60 := by decide
theorem test_ldSTVx :
    (stepWord 0xF218 (withRegs [(2, 5)])).1.st = 5 ∧ isPlayingSound (stepWord 0xF218 (withRegs [(2, 5)])).1 = true := by decide
theorem test_tick :
    let t := tick { State.reset with dt := 2, st := 1 }
    t.dt = 1 ∧ t.st = 0 ∧ isPlayingSound t = false ∧ (tick State.reset).dt = 0 := by decide

/-! ### Faults and reset (95_test_vectors.md 2.7) -/

theorem test_construct_and_step :
    construct [] = .ok State.reset ∧
    pcAndReply 0x0000 State.reset = (0x202, .fault (.decodeFailure 0x0000)) := by decide
theorem test_construct_too_large : construct (List.replicate 3584 0) = .error (.imageTooLarge 3584) := by
  rw [construct, List.length_replicate]; rfl
theorem test_fetch_edge :
    step { State.reset with pc := 0xFFE } = .fault (.memoryOutOfRange .fetch 0xFFE) ∧
    (stepWord 0x6A2F { State.reset with pc := 0xFFD }).2 = .ok := by
  exact ⟨rfl, by decide⟩
theorem test_fault_codes :
    ([.ok, .fault (.decodeFailure 0), .fault (.stackOverflow 15), .fault .stackUnderflow,
      .fault (.memoryOutOfRange .fetch 0xFFE), .fault (.keyIndexOutOfRange 16), .fault (.glyphIndexOutOfRange 16)] :
        List StepReply).map StepReply.code = [some 0, some 1, some 2, some 3, some 4, some 5, some 6] := by decide

/-! ### Witnesses: states and operands that meet the hypotheses of each statement, clause by clause, at boundary values -/

/-- The answer is a next state. -/
def completes : Result → Bool
  | .next _ => true
  | .fault _ | .refused _ => false

theorem next_of_completes {r : Result} (h : completes r = true) : ∃ t, r = .next t := by
  cases r with
  | next t => exact ⟨t, rfl⟩
  | fault f => cases h
  | refused f => cases h

/-- The reset state with the word `w` at `PC`. -/
def withWord (w : Nat) : State := State.reset.withFetchWord 16 w

theorem witness_DecodeOfEncodeIsSame :
    (Instr.sys 0x0EF).wellFormed = true ∧ (Instr.drw 15 15 15).wellFormed = true := by decide
theorem witness_EncodeOfDecodeIsSame : decode 0xFF65 = .ok (.ldVxMem 15) := by decide
theorem witness_EveryWordMatchesAtMostOneRow :
    ((0x00E1 : Word) &&& (Instr.sys 0).format.mask = (Instr.sys 0).pattern ∧ (0x00E1 : Word) ≠ 0x00E0 ∧ (0x00E1 : Word) ≠ 0x00EE) ∧
    (0x8ABE : Word) &&& (Instr.shl 0 0).format.mask = (Instr.shl 0 0).pattern ∧ decode 0x8ABE = .ok (.shl 10 11) := by decide
theorem witness_StepRunsDecodedInstruction :
    let s : State := { State.reset with pc := 0xFFD }.withFetchWord 16 0x6A2F
    s.pc.toNat + 1 < Config.memSize ∧
    decode (wordOfBytes (s.byteAt s.pc.toNat) (s.byteAt (s.pc.toNat + 1))) = .ok (.ldImm 10 0x2F) := by decide
theorem witness_StepIsFetchDecodeExecute_fetch : Config.memSize ≤ ({ State.reset with pc := 0xFFE } : State).pc.toNat + 1 := by
  decide
theorem witness_StepIsFetchDecodeExecute_decode :
    (withWord 0x5121).opcodeAt 0x5121 ∧ decodeVerdict 0x5121 = .error (.noMatch 0x5121) := ⟨⟨by decide, by decide⟩, by decide⟩
theorem witness_StepIsFetchDecodeExecute_next :
    (withWord 0xC3FF).opcodeAt 0xC3FF ∧ decodeVerdict 0xC3FF = .ok (.rnd 3 0xFF) ∧
    ∃ t, exec (.rnd 3 0xFF) (((withWord 0xC3FF).writePc 0x202).supply [0xA7]) = .next t :=
  ⟨⟨by decide, by decide⟩, by decide, next_of_completes (by decide)⟩
theorem witness_StepIsFetchDecodeExecute_fault :
    (withWord 0x00EE).opcodeAt 0x00EE ∧ decodeVerdict 0x00EE = .ok .ret ∧
    exec .ret (((withWord 0x00EE).writePc 0x202).supply [0xA7]) = .fault .stackUnderflow :=
  ⟨⟨by decide, by decide⟩, by decide, rfl⟩
theorem witness_DecodeFailureCarriesOpcode :
    (withWord 0xF0FF).opcodeAt 0xF0FF ∧ decodeVerdict 0xF0FF = .error (.noMatch 0xF0FF) := ⟨⟨by decide, by decide⟩, by decide⟩
theorem witness_SystemCallIsDecodeFailure :
    (0x0EF : Addr12) ≠ 0x0E0 ∧ (0x0EF : Addr12) ≠ 0x0EE ∧ (withWord 0x00EF).opcodeAt (encode (.sys 0x0EF)) :=
  ⟨by decide, by decide, by decide, by decide⟩
theorem witness_FaultLeavesAllButPc :
    (hostStep 0 { State.reset with pc := 0xFFE }).2 = .fault (.memoryOutOfRange .fetch 0xFFE) ∧
    (hostStep 0 ({ State.reset with i := 0xFFD }.withFetchWord 16 0xF033)).2 = .fault (.memoryOutOfRange .data 0xFFF) := by decide
theorem witness_FetchFaultRepeats : Config.memSize ≤ ({ State.reset with pc := 0xFFE } : State).pc.toNat + 1 := by decide
theorem witness_JumpToSelfIsFixedPoint :
    (0x200 : Addr12).toNat = (withWord 0x1200).pc.toNat ∧ (withWord 0x1200).opcodeAt (encode (.jp 0x200)) :=
  ⟨by decide, by decide, by decide⟩
theorem witness_CallPushesReturnAddress :
    ({ State.reset with sp := 14 } : State).sp ≠ 15 ∧ ({ State.reset with sp := 15 } : State).sp = 15 := by decide
theorem witness_ReturnPopsSlot : ({ State.reset with sp := 1 } : State).sp ≠ 0 ∧ State.reset.sp = 0 := by decide
theorem witness_ReturnUndoesCall : ∃ t, exec (.call 0xFFF) { State.reset with sp := 14 } = .next t :=
  next_of_completes (by decide)
theorem witness_PcAfterEveryStep : ∃ t, step (withWord 0x5110) = .next t := next_of_completes (by decide)
theorem witness_PcStaysEven :
    (∃ t, step (withWord 0x1FFE) = .next t) ∧ (withWord 0x1FFE).pc.toNat % 2 = 0 ∧
    (∀ k, ((withWord 0x1FFE).readStack k).toNat % 2 = 0) ∧
    (∀ nnn, (withWord 0x1FFE).opcodeAt (encode (.jp nnn)) ∨ (withWord 0x1FFE).opcodeAt (encode (.call nnn)) →
      nnn.toNat % 2 = 0) ∧
    (∀ nnn, (withWord 0x1FFE).opcodeAt (encode (.jpV0 nnn)) → (nnn.toNat + ((withWord 0x1FFE).readV 0).toNat) % 2 = 0) := by
  have atPc : ∀ op, (withWord 0x1FFE).opcodeAt op → op.toNat = 0x1FFE := by
    intro op h
    rw [h.2]
    decide
  refine ⟨next_of_completes (by decide), by decide, by decide, ?_, ?_⟩
  · rintro nnn (h | h)
    · have := atPc _ h
      rw [encode, packNNN_toNat] at this
      simp at this
      omega
    · have := atPc _ h
      rw [encode, packNNN_toNat] at this
      simp at this
      omega
  · intro nnn h
    have := atPc _ h
    rw [encode, packNNN_toNat] at this
    simp at this
    omega
/-- The inner hypothesis of `AddGivesSumAndCarry`, `SubGivesDifferenceAndGreater`, `SubnGivesDifferenceAndGreater` and
`ShiftsMoveEveryBit`. -/
theorem witness_destination_not_flag : (14 : Reg) ≠ 15 ∧ (0 : Reg) ≠ 15 := by decide
theorem witness_ShiftsIgnoreSecondRegister : decode 0x8ABE = .ok (.shl 10 11) ∧ decode 0x8AB6 = .ok (.shr 10 11) := by decide
theorem witness_RandomIsDrawUnderMask :
    (withWord 0xCFF0).opcodeAt 0xCFF0 ∧ decode 0xCFF0 = .ok (.rnd 15 0xF0) := ⟨⟨by decide, by decide⟩, by decide⟩
theorem witness_RandomConsumesOneDraw :
    (State.reset.supply [0xA7]).entropyIn = 0xA7 :: [] ∧ State.reset.entropyIn = [] := by decide
theorem witness_OnlyRandomReadsEntropy : ∀ (x : Reg) (kk : Byte), Instr.cls ≠ .rnd x kk := fun _ _ => nofun
theorem witness_GlyphAddressOrFault :
    ((withRegs [(4, 15)]).readV 4).toNat ≤ 15 ∧ 15 < ((withRegs [(4, 16)]).readV 4).toNat := by decide
theorem witness_DecimalDigitsStored :
    ({ State.reset with i := 0xFFC } : State).mem.wf = true ∧ ({ State.reset with i := 0xFFC } : State).i.toNat + 2 < Config.memSize := by
  decide
/-- The hypotheses of `RegistersStored` and of `RegistersLoaded`. -/
theorem witness_RegistersStored :
    ({ State.reset with i := 0xFEF } : State).mem.wf = true ∧
    ({ State.reset with i := 0xFEF } : State).i.toNat + (15 : Reg).val < Config.memSize := by decide
theorem witness_DataAccessOutsideMemoryFaults :
    Config.memSize ≤ ({ State.reset with i := 0xFFD } : State).i.toNat + 2 ∧
    Config.memSize ≤ ({ State.reset with i := 0xFFF } : State).i.toNat + (0 : Reg).val ∧
    (2 : Nibble) ≠ 0 ∧ Config.memSize ≤ ({ State.reset with i := 0xFFE } : State).i.toNat + (2 : Nibble).toNat - 1 := by decide
theorem witness_StoreThenLoadRestores :
    ({ State.reset with i := 0xFEF } : State).mem.wf = true ∧
    ∃ t, exec (.ldMemVx 15) { State.reset with i := 0xFEF } = .next t := ⟨by decide, next_of_completes (by decide)⟩
theorem witness_NextFetchSeesStore :
    let s : State := { withRegs [(0, 0x12), (1, 0x0A)] with i := 0x202, pc := 0x202 }
    s.mem.wf = true ∧ 1 ≤ (1 : Reg).val ∧ s.i = s.pc ∧ (∃ t, exec (.ldMemVx 1) s = .next t) ∧
    decode (wordOfBytes (s.readV 0) (s.readV 1)) = .ok (.jp 0x20A) :=
  ⟨by decide, by decide, by decide, next_of_completes (by decide), by decide⟩
theorem witness_MemoryReadAfterWrite :
    State.reset.mem.wf = true ∧ 0xFFE < Config.memSize ∧ Config.memSize ≤ 0xFFF ∧ 0xFFD + 1 < Config.memSize ∧
    Config.memSize ≤ 0xFFE + 1 := by decide
theorem witness_DrawInvertsCoveredCells :
    (0 : Nibble) = 0 ∧ ({ State.reset with i := 0xFFE } : State).i.toNat + (1 : Nibble).toNat - 1 < Config.memSize := by decide
theorem witness_DrawTwiceRestores :
    (0 : Reg) ≠ 15 ∧ (1 : Reg) ≠ 15 ∧ (∃ t, exec (.drw 0 1 1) (sprite [0xFF] 60 31) = .next t) ∧
    ∀ cx cy, (sprite [0xFF] 60 31).pix.cell cx cy = false :=
  ⟨by decide, by decide, next_of_completes (by decide), by decide⟩
theorem witness_KeySkips :
    ((withRegs [(5, 15)]).readV 5).toNat = (15 : Fin 16).val ∧ 15 < ((withRegs [(5, 16)]).readV 5).toNat := by decide
theorem witness_WaitKeyPress :
    let s := setKeypad (pressing [3, 7]) State.reset
    (s.readKey 3 = true ∧ ∀ j, j < 3 → s.readKey j = false) ∧ (∀ k, State.reset.readKey k = false) ∧
    (withWord 0xF10A).opcodeAt 0xF10A ∧ decode 0xF10A = .ok (.ldVxK 1) ∧ ∀ k, (withWord 0xF10A).readKey k = false :=
  ⟨by decide, by decide, ⟨by decide, by decide⟩, by decide, by decide⟩
theorem witness_TimersChangeOnlyByLoadAndTick :
    (∃ t, exec (.ldDTVx 2) State.reset = .next t) ∧ ∀ x : Reg, Instr.ldDTVx 2 ≠ .ldSTVx x :=
  ⟨next_of_completes (by decide), fun _ => nofun⟩
theorem witness_TicksCountDownToZero :
    let s : State := { withWord 0xF215 with dt := 1, st := 1 }
    (hostStep 0 s).1.dt.toNat < s.dt.toNat ∧
    (hostStep 0 (s.withFetchWord 16 0xF218)).1.st.toNat < (s.withFetchWord 16 0xF218).st.toNat := by decide
theorem witness_KeypadReadAndWritten :
    (∃ t, exec (.skp 0) State.reset = .next t) ∧
    ∀ x : Reg, Instr.ldVxDT 0 ≠ .skp x ∧ Instr.ldVxDT 0 ≠ .sknp x ∧ Instr.ldVxDT 0 ≠ .ldVxK x :=
  ⟨next_of_completes (by decide), fun _ => ⟨nofun, nofun, nofun⟩⟩
theorem witness_ConstructGivesResetValues : (List.replicate 3583 (0 : Byte)).length ≤ Config.maxImage := by
  rw [List.length_replicate]; decide
theorem witness_FirstInstructionIsImageHead :
    (∃ s, construct [0x12, 0x00] = .ok s) ∧ State.reset.opcodeAt 0 := ⟨⟨_, rfl⟩, by decide, by decide⟩
theorem witness_EveryInstructionFrame :
    ({ State.reset with i := 0xFFE } : State).mem.wf = true ∧
    ∃ t, exec (.ldMemVx 0) { State.reset with i := 0xFFE } = .next t := ⟨by decide, next_of_completes (by decide)⟩
theorem witness_FlagIsZeroOrOne :
    (Instr.shr 15 0).writesFlag = true ∧ ∃ t, exec (.shr 15 0) State.reset = .next t := ⟨by decide, next_of_completes (by decide)⟩
theorem witness_InstructionFaultsExactlyWhen :
    (Instr.drw 0 0 2).faultIn { State.reset with i := 0xFFE } = some (.memoryOutOfRange .data 0xFFF) ∧
    (Instr.drw 0 0 1).faultIn { State.reset with i := 0xFFE } = none ∧
    (Instr.drw 0 0 0).faultIn { State.reset with i := 0xFFFF } = none := by decide
theorem witness_StepKeepsInvariant :
    let s : State := (withRegs [(0, 0xFF)]).withFetchWord 16 0xBFFF
    s.Inv ∧ ∃ t, step s = .next t :=
  ⟨⟨by decide, by decide, by decide, by decide⟩, next_of_completes (by decide)⟩
theorem witness_ReachableStatesMeetInvariant : (hostStep 0 State.reset).1.Reachable :=
  ⟨[], State.reset, [.step 0], rfl, rfl⟩

end Sys2Proof.Tests
end

section
/-! SUPPORT. What an instruction that completes leaves unchanged: the frame of each state update, and from these the frame of
every instruction, as the access summary has it (10_state.md R34). -/

namespace Sys2Proof.Machine

/-! ### Frames, composed -/

theorem OnlyChanges.mono {ps qs : List Part} {s t : State} (h : OnlyChanges ps s t) (hsub : ps ⊆ qs) :
    OnlyChanges qs s t := fun p hp => h p fun hmem => hp (hsub hmem)

theorem Part.Same.trans {p : Part} {s t u : State} (h : p.Same s t) (h' : p.Same t u) : p.Same s u := by
  cases p with
  | callStack | entropy => exact ⟨h'.1.trans h.1, h'.2.trans h.2⟩
  | memory => exact fun a => (h' a).trans (h a)
  | regs | index | pc | delay | sound | display | keys => exact Eq.trans h' h

/-- Two updates change what either changes. -/
theorem OnlyChanges.trans {ps qs : List Part} {s t u : State} (h : OnlyChanges ps s t) (h' : OnlyChanges qs t u) :
    OnlyChanges (ps ++ qs) s u := fun p hp =>
  (h p fun hmem => hp (List.mem_append_left _ hmem)).trans (h' p fun hmem => hp (List.mem_append_right _ hmem))

/-! ### The frame of each update -/

theorem State.writeV_onlyChanges (s : State) (x : Reg) (b : Byte) : OnlyChanges [.regs] s (s.writeV x b) := by
  intro p hp; cases p <;> simp [Part.Same] at hp ⊢

theorem State.writeWithFlag_onlyChanges (s : State) (x : Reg) (r f : Byte) :
    OnlyChanges [.regs] s (s.writeWithFlag x r f) := by
  intro p hp; cases p <;> simp [Part.Same] at hp ⊢

theorem State.writeRegs_onlyChanges (s : State) (regs : Vector Byte 16) : OnlyChanges [.regs] s (s.writeRegs regs) := by
  intro p hp; cases p <;> simp [Part.Same] at hp ⊢

theorem State.writeI_onlyChanges (s : State) (w : Word) : OnlyChanges [.index] s (s.writeI w) := by
  intro p hp; cases p <;> simp [Part.Same] at hp ⊢

theorem State.writePc_onlyChanges (s : State) (w : Word) : OnlyChanges [.pc] s (s.writePc w) := by
  intro p hp; cases p <;> simp [Part.Same] at hp ⊢

theorem State.writeDt_onlyChanges (s : State) (b : Byte) : OnlyChanges [.delay] s (s.writeDt b) := by
  intro p hp; cases p <;> simp [Part.Same] at hp ⊢

theorem State.writeSt_onlyChanges (s : State) (b : Byte) : OnlyChanges [.sound] s (s.writeSt b) := by
  intro p hp; cases p <;> simp [Part.Same] at hp ⊢

theorem State.writePix_onlyChanges (s : State) (d : Display) : OnlyChanges [.display] s (s.writePix d) := by
  intro p hp; cases p <;> simp [Part.Same] at hp ⊢

theorem State.push_onlyChanges (s : State) (w : Word) : OnlyChanges [.callStack] s (s.push w) := by
  intro p hp; cases p <;> simp [Part.Same] at hp ⊢

theorem State.pop_onlyChanges (s : State) : OnlyChanges [.callStack] s s.pop := by
  intro p hp; cases p <;> simp [Part.Same] at hp ⊢

theorem State.storeBytes_onlyChanges (s : State) (a : Nat) (bytes : List Byte) :
    OnlyChanges [.memory] s (s.storeBytes a bytes) := by
  intro p hp; cases p <;> simp [Part.Same] at hp ⊢

theorem State.consumeDraw_onlyChanges (s : State) : OnlyChanges [.entropy] s s.consumeDraw := by
  intro p hp; cases p <;> simp [Part.Same] at hp ⊢

/-! ### What a completed instruction did, where it may fault or branch -/

theorem skipIf_next {cond : Bool} {s t : State} (h : skipIf cond s = .next t) :
    t = s.writePc (if cond then s.pc + 2 else s.pc) := by
  rw [skipIf_eq] at h; cases h; rfl

theorem execCall_next {nnn : Addr12} {s t : State} (h : execCall nnn s = .next t) :
    s.sp ≠ 15 ∧ t = (s.push s.pc).writePc (zextAddr nnn) := by
  unfold execCall at h
  split at h
  · cases h
  · cases h; exact ⟨‹_›, rfl⟩

theorem execRet_next {s t : State} (h : execRet s = .next t) :
    s.sp ≠ 0 ∧ t = (s.writePc (s.readStack s.sp)).pop := by
  unfold execRet at h
  split at h
  · cases h
  · cases h; exact ⟨‹_›, rfl⟩

theorem execSkp_next {x : Reg} {s t : State} (h : execSkp x s = .next t) :
    ∃ k : Fin 16, k.val = (s.readV x).toNat ∧ t = s.writePc (if s.readKey k then s.pc + 2 else s.pc) := by
  obtain ⟨k, hk, hgo⟩ := State.withKey_next h
  exact ⟨k, hk, skipIf_next hgo⟩

theorem execSknp_next {x : Reg} {s t : State} (h : execSknp x s = .next t) :
    ∃ k : Fin 16, k.val = (s.readV x).toNat ∧ t = s.writePc (if !s.readKey k then s.pc + 2 else s.pc) := by
  obtain ⟨k, hk, hgo⟩ := State.withKey_next h
  exact ⟨k, hk, skipIf_next hgo⟩

theorem execLdFVx_next {x : Reg} {s t : State} (h : execLdFVx x s = .next t) :
    ∃ d : Fin 16, d.val = (s.readV x).toNat ∧ t = s.writeI (glyphAddr d) := by
  obtain ⟨d, hd, ⟨⟩⟩ := State.withGlyph_next h
  exact ⟨d, hd, rfl⟩

theorem execLdVxK_next {x : Reg} {s t : State} (h : execLdVxK x s = .next t) :
    (∃ k, s.lowestKey = some k ∧ t = s.writeV x (BitVec.ofNat 8 k.val)) ∨
    (s.lowestKey = none ∧ t = s.writePc (s.pc - 2)) := by
  unfold execLdVxK at h
  split at h
  · cases h; exact .inl ⟨_, ‹_›, rfl⟩
  · cases h; exact .inr ⟨‹_›, rfl⟩

/-! ### The frame of every instruction -/

/-- An instruction that completes changes only the pieces of state the access summary lists for it (10_state.md R34). -/
theorem exec_onlyChanges {i : Instr} {s t : State} (h : exec i s = .next t) : OnlyChanges i.mayWrite s t := by
  cases i with
  | cls => cases h; exact s.writePix_onlyChanges _
  | ret =>
    obtain ⟨-, rfl⟩ := execRet_next h
    exact (s.writePc_onlyChanges _).trans (State.pop_onlyChanges _)
  | sys => cases h
  | jp | jpV0 => cases h; exact s.writePc_onlyChanges _
  | call =>
    obtain ⟨-, rfl⟩ := execCall_next h
    exact ((s.push_onlyChanges _).trans (State.writePc_onlyChanges _ _)).mono (by simp [Instr.mayWrite])
  | seImm | sneImm | seReg | sneReg => obtain rfl := skipIf_next h; exact s.writePc_onlyChanges _
  | skp => obtain ⟨k, -, rfl⟩ := execSkp_next h; exact s.writePc_onlyChanges _
  | sknp => obtain ⟨k, -, rfl⟩ := execSknp_next h; exact s.writePc_onlyChanges _
  | ldImm | addImm | ldReg | orReg | andReg | xorReg | ldVxDT => cases h; exact s.writeV_onlyChanges _ _
  | addReg | sub | shr | subn | shl => cases h; exact s.writeWithFlag_onlyChanges _ _ _
  | rnd =>
    cases h
    exact (s.consumeDraw_onlyChanges.trans (State.writeV_onlyChanges _ _ _)).mono (by simp [Instr.mayWrite])
  | ldI | addIVx => cases h; exact s.writeI_onlyChanges _
  | ldFVx => obtain ⟨d, -, rfl⟩ := execLdFVx_next h; exact s.writeI_onlyChanges _
  | drw =>
    obtain ⟨-, ⟨⟩⟩ := State.withDataRange_next h
    exact ((s.writePix_onlyChanges _).trans (State.writeV_onlyChanges _ _ _)).mono (by simp [Instr.mayWrite])
  | ldVxK =>
    obtain ⟨k, -, rfl⟩ | ⟨-, rfl⟩ := execLdVxK_next h
    · exact (s.writeV_onlyChanges _ _).mono (by simp [Instr.mayWrite])
    · exact (s.writePc_onlyChanges _).mono (by simp [Instr.mayWrite])
  | ldDTVx => cases h; exact s.writeDt_onlyChanges _
  | ldSTVx => cases h; exact s.writeSt_onlyChanges _
  | ldBVx | ldMemVx => obtain ⟨-, ⟨⟩⟩ := State.withDataRange_next h; exact s.storeBytes_onlyChanges _ _
  | ldVxMem => obtain ⟨-, ⟨⟩⟩ := State.withDataRange_next h; exact s.writeRegs_onlyChanges _

end Sys2Proof.Machine
end

section
/-! SUPPORT. What no instruction but a few reads: replacing the sound timer, the keypad and the entropy fields beforehand or
afterwards is the same for every instruction that does not use the piece replaced. -/

namespace Sys2Proof.Machine

/-! ### Outcomes of one kind -/

theorem SameOutcome.ite {R : State → State → Prop} {c : Prop} [Decidable c] {a b a' b' : Result}
    (ha : SameOutcome R a a') (hb : SameOutcome R b b') : SameOutcome R (if c then a else b) (if c then a' else b') := by
  split
  · exact ha
  · exact hb

theorem State.withDataRange_sameOutcome {R : State → State → Prop} {s s' : State} (hi : s'.i = s.i) (k : Nat)
    {go go' : Result} (h : SameOutcome R go go') : SameOutcome R (s.withDataRange k go) (s'.withDataRange k go') := by
  unfold State.withDataRange State.dataAddr
  rw [hi]
  exact .ite h rfl

theorem State.withKey_sameOutcome {R : State → State → Prop} {s s' : State} {x : Reg} (hx : s'.readV x = s.readV x)
    {go go' : Fin 16 → Result} (h : ∀ k, SameOutcome R (go k) (go' k)) :
    SameOutcome R (s.withKey x go) (s'.withKey x go') := by
  simp only [State.withKey, hx]
  split
  · exact h _
  · exact rfl

theorem State.withGlyph_sameOutcome {R : State → State → Prop} {s s' : State} {x : Reg} (hx : s'.readV x = s.readV x)
    {go go' : Fin 16 → Result} (h : ∀ k, SameOutcome R (go k) (go' k)) :
    SameOutcome R (s.withGlyph x go) (s'.withGlyph x go') := by
  simp only [State.withGlyph, hx]
  split
  · exact h _
  · exact rfl

/-! ### The pieces few instructions read, replaced -/

/-- `s` with its sound timer, keypad, supplied bytes and count of free draws each passed through a function; `id` keeps a piece. -/
def State.remap (fSt : Byte → Byte) (fKey : Keypad → Keypad) (fIn : List Byte → List Byte) (fCount : Nat → Nat)
    (s : State) : State :=
  { s with st := fSt s.st, key := fKey s.key, entropyIn := fIn s.entropyIn, entropyCount := fCount s.entropyCount }

variable {fSt : Byte → Byte} {fKey : Keypad → Keypad} {fIn : List Byte → List Byte} {fCount : Nat → Nat}

theorem State.remap_readV (s : State) (x : Reg) : (s.remap fSt fKey fIn fCount).readV x = s.readV x := rfl

theorem skipIf_remap (cond : Bool) (s : State) :
    SameOutcome (fun t t' => t' = t.remap fSt fKey fIn fCount) (skipIf cond s)
      (skipIf cond (s.remap fSt fKey fIn fCount)) := by
  simp only [skipIf_eq]; exact rfl

theorem State.consumeDraw_remap (s : State) :
    (s.remap fSt fKey id id).consumeDraw = s.consumeDraw.remap fSt fKey id id := by
  by_cases h : s.entropyIn = [] <;> simp [State.consumeDraw, State.remap, h]

theorem execSkp_remap (x : Reg) (s : State) :
    SameOutcome (fun t t' => t' = t.remap fSt id fIn fCount) (execSkp x s) (execSkp x (s.remap fSt id fIn fCount)) := by
  unfold execSkp
  exact State.withKey_sameOutcome (s.remap_readV x) fun k => skipIf_remap (s.readKey k) s

theorem execSknp_remap (x : Reg) (s : State) :
    SameOutcome (fun t t' => t' = t.remap fSt id fIn fCount) (execSknp x s) (execSknp x (s.remap fSt id fIn fCount)) := by
  unfold execSknp
  exact State.withKey_sameOutcome (s.remap_readV x) fun k => skipIf_remap (!s.readKey k) s

theorem execLdFVx_remap (x : Reg) (s : State) :
    SameOutcome (fun t t' => t' = t.remap fSt fKey fIn fCount) (execLdFVx x s)
      (execLdFVx x (s.remap fSt fKey fIn fCount)) := by
  unfold execLdFVx
  exact State.withGlyph_sameOutcome (s.remap_readV x) fun _ => by exact rfl

theorem execLdVxK_remap (x : Reg) (s : State) :
    SameOutcome (fun t t' => t' = t.remap fSt id fIn fCount) (execLdVxK x s) (execLdVxK x (s.remap fSt id fIn fCount)) := by
  have hkey : (s.remap fSt id fIn fCount).lowestKey = s.lowestKey := rfl
  simp only [execLdVxK, hkey]
  cases s.lowestKey <;> exact rfl

/-- Whatever replaces a piece, an instruction that does not use that piece answers the same and leaves the replacement there.
`LD ST, Vx` alone uses the sound timer, `SKP`, `SKNP` and `LD Vx, K` the keypad, `RND` the entropy fields (10_state.md R29, R31,
R39). -/
theorem exec_remap (i : Instr) (s : State) (hSt : ∀ x, i = .ldSTVx x → fSt = id)
    (hKey : ∀ x, i = .skp x ∨ i = .sknp x ∨ i = .ldVxK x → fKey = id)
    (hEntropy : ∀ x kk, i = .rnd x kk → fIn = id ∧ fCount = id) :
    SameOutcome (fun t t' => t' = t.remap fSt fKey fIn fCount) (exec i s) (exec i (s.remap fSt fKey fIn fCount)) := by
  cases i with
  | ret | call => exact .ite rfl rfl
  | seImm | sneImm | seReg | sneReg => exact skipIf_remap _ s
  | skp x => obtain rfl := hKey x (.inl rfl); exact execSkp_remap x s
  | sknp x => obtain rfl := hKey x (.inr (.inl rfl)); exact execSknp_remap x s
  | ldVxK x => obtain rfl := hKey x (.inr (.inr rfl)); exact execLdVxK_remap x s
  | ldSTVx x => obtain rfl := hSt x rfl; exact rfl
  | rnd x kk =>
    obtain ⟨rfl, rfl⟩ := hEntropy x kk rfl
    exact congrArg (State.writeV · x (s.draw &&& kk)) s.consumeDraw_remap
  | ldFVx x => exact execLdFVx_remap x s
  | drw | ldBVx | ldMemVx | ldVxMem => exact State.withDataRange_sameOutcome rfl _ rfl
  | cls | sys | jp | jpV0 | ldImm | addImm | ldReg | orReg | andReg | xorReg | addReg | sub | shr | subn | shl | ldI | addIVx
  | ldVxDT | ldDTVx => exact rfl

end Sys2Proof.Machine
end

section
/-! CERTIFICATE. The statements about the state (10_state.md): the program counter, the timers, the keypad, and the values after
reset. -/

namespace Sys2Proof.Machine

/-! ### The program counter (R24) -/

/-- A key number names one key, so the key's state is that of the key so numbered (44_keypad_timers.md R150). -/
theorem State.exists_key_iff {s : State} {k : Fin 16} {n : Nat} (hk : k.val = n) (b : Bool) :
    (∃ j : Fin 16, j.val = n ∧ s.readKey j = b) ↔ s.readKey k = b := by
  constructor
  · rintro ⟨j, hj, hb⟩
    exact Fin.ext (hj.trans hk.symm) ▸ hb
  · exact fun hb => ⟨k, hk, hb⟩

/-- R24's table holds of each instruction: the instructions that may write `PC` one by one, the others by their frame. -/
theorem exec_pc {i : Instr} {s t : State} (h : exec i s = .next t) : t.pc = i.pcAfter s := by
  have hframe := exec_onlyChanges h .pc
  cases i
  case ret => obtain ⟨-, rfl⟩ := execRet_next h; rfl
  case call => obtain ⟨-, rfl⟩ := execCall_next h; rfl
  case jp | jpV0 => cases h; rfl
  case seImm | sneImm | seReg | sneReg => obtain rfl := skipIf_next h; simp [Instr.pcAfter]
  case skp => obtain ⟨k, hk, rfl⟩ := execSkp_next h; simp [Instr.pcAfter, State.exists_key_iff hk]
  case sknp => obtain ⟨k, hk, rfl⟩ := execSknp_next h; simp [Instr.pcAfter, State.exists_key_iff hk]
  case ldVxK =>
    obtain ⟨k, hk, rfl⟩ | ⟨hk, rfl⟩ := execLdVxK_next h
    · exact (if_pos ⟨k, (State.lowestKey_some hk).1⟩).symm
    · simp [Instr.pcAfter, State.lowestKey_none.mp hk]
  all_goals exact hframe (by simp [Instr.mayWrite])

/-- Settles O19: the step ran the instruction fetched at `PC`, and `exec_pc` gives R24's table for it. -/
theorem pcAfterEveryStep : Obligations.PcAfterEveryStep := by
  intro s t h
  obtain ⟨op, i, hfetch, hdecode, hexec⟩ := step_next h
  exact ⟨op, i, State.fetchWord_eq_some hfetch, hdecode, exec_pc hexec⟩

/-! ### The timers (R28, R29) -/

theorem exec_dt {i : Instr} {s t : State} (h : exec i s = .next t) :
    t.dt = s.dt ∨ ∃ x, i = .ldDTVx x ∧ t.dt = s.readV x := by
  have hframe := exec_onlyChanges h .delay
  cases i
  case ldDTVx x => cases h; exact .inr ⟨x, rfl, rfl⟩
  all_goals exact .inl (hframe (by simp [Instr.mayWrite]))

theorem exec_st {i : Instr} {s t : State} (h : exec i s = .next t) :
    t.st = s.st ∨ ∃ x, i = .ldSTVx x ∧ t.st = s.readV x := by
  have hframe := exec_onlyChanges h .sound
  cases i
  case ldSTVx x => cases h; exact .inr ⟨x, rfl, rfl⟩
  all_goals exact .inl (hframe (by simp [Instr.mayWrite]))

/-- No instruction but `LD ST, Vx` sees the sound timer. -/
theorem exec_writeSt {i : Instr} (hi : ∀ x, i ≠ .ldSTVx x) (s : State) (b : Byte) :
    SameOutcome (fun t t' => t' = t.writeSt b) (exec i s) (exec i (s.writeSt b)) :=
  exec_remap (fSt := fun _ => b) (fKey := id) (fIn := id) (fCount := id) i s (fun x e => absurd e (hi x)) (fun _ _ => rfl)
    fun _ _ _ => ⟨rfl, rfl⟩

@[simp] theorem countDown_toNat (b : Byte) : (countDown b).toNat = b.toNat - 1 := by
  unfold countDown
  split
  · exact BitVec.toNat_sub_of_le (by bv_omega)
  · omega

theorem isPlayingSound_iff (s : State) : isPlayingSound s = true ↔ 0 < s.st.toNat := by
  simp [isPlayingSound, Nat.pos_iff_ne_zero, ← BitVec.toNat_inj]

/-- Settles O46: the writers by the frame of every instruction, the readers by noninterference, the tick by `countDown_toNat`. -/
theorem timersChangeOnlyByLoadAndTick : Obligations.TimersChangeOnlyByLoadAndTick := by
  have hmoves : ∀ (x : Reg) (s : State), (∃ t, exec (.ldVxDT x) s = .next t ∧ t.readV x = s.dt) ∧
      (∃ t, exec (.ldDTVx x) s = .next t ∧ t.dt = s.readV x) ∧ (∃ t, exec (.ldSTVx x) s = .next t ∧ t.st = s.readV x) :=
    fun x s => ⟨⟨_, rfl, s.readV_writeV_same x s.dt⟩, ⟨_, rfl, rfl⟩, ⟨_, rfl, rfl⟩⟩
  exact ⟨rfl, rfl, fun _ _ _ h => ⟨exec_dt h, exec_st h⟩, hmoves, fun _ s b hi => exec_writeSt hi s b,
    fun s => ⟨countDown_toNat _, countDown_toNat _, isPlayingSound_iff s⟩⟩

/-! ### The keypad (R31) -/

theorem exec_key {i : Instr} {s t : State} (h : exec i s = .next t) : t.key = s.key :=
  exec_onlyChanges h .keys (by cases i <;> simp [Instr.mayWrite])

/-- No instruction but `SKP`, `SKNP` and `LD Vx, K` sees the keypad. -/
theorem exec_writeKeys {i : Instr} (hi : ∀ x, i ≠ .skp x ∧ i ≠ .sknp x ∧ i ≠ .ldVxK x) (s : State) (pressed : Keypad) :
    SameOutcome (fun t t' => t' = t.writeKeys pressed) (exec i s) (exec i (s.writeKeys pressed)) :=
  exec_remap (fSt := id) (fKey := fun _ => pressed) (fIn := id) (fCount := id) i s (fun _ _ => rfl)
    (fun x e => absurd e (by simp [hi x])) fun _ _ _ => ⟨rfl, rfl⟩

theorem State.reset_readKey (k : Fin 16) : State.reset.readKey k = false := by
  simp [State.readKey, State.reset, Vector.get_eq_getElem]

/-- Settles O47: no writer by the frame of every instruction, no other reader by noninterference. -/
theorem keypadReadAndWritten : Obligations.KeypadReadAndWritten :=
  ⟨State.reset_readKey, fun _ _ _ => rfl, fun _ _ _ => exec_key, fun _ => rfl,
    fun _ s pressed hi => exec_writeKeys hi s pressed⟩

/-! ### Reset (R38; 70_reset_and_hazards.md R190 to R193) -/

theorem State.reset_readV (r : Reg) : State.reset.readV r = 0 := by
  simp [State.readV, State.reset, Vector.get_eq_getElem]

theorem State.reset_readStack (k : Fin 16) : State.reset.readStack k = 0 := by
  simp [State.readStack, State.reset, Vector.get_eq_getElem]

theorem State.reset_pix (x : Fin 64) (y : Fin 32) : State.reset.pix.cell x y = false := Display.cell_clear x y

theorem Config.font_length : Config.font.length = 80 := rfl

/-- Below the font unlisted memory is 0. -/
theorem Memory.unlisted_below_font {a : Nat} (h : a < 0x050) : Memory.unlisted a = 0 := if_pos h

theorem Memory.unlisted_font (j : Nat) (h : j < Config.font.length) : Memory.unlisted (0x050 + j) = Config.font[j] := by
  simp [Memory.unlisted, Config.fontBase, h]

/-- Above the font unlisted memory is 0. -/
theorem Memory.unlisted_above_font {a : Nat} (h : 0x0A0 ≤ a) : Memory.unlisted a = 0 := by
  have hfont : Config.font.length ≤ a - Config.fontBase := by
    rw [Config.font_length, Config.fontBase]; omega
  rw [Memory.unlisted, if_neg (by rw [Config.fontBase]; omega), List.getD_eq_default _ _ hfont]

/-- An image that fits is stored from `PROG_BASE` up into the reset state (R190, R193). -/
theorem construct_ok {image : List Byte} (h : image.length ≤ Config.maxImage) :
    construct image = .ok (State.reset.storeBytes 0x200 image) := if_neg (Nat.not_lt.mpr h)

/-- Outside the image memory reads as unlisted. -/
theorem State.byteAt_reset_storeBytes_outside {image : List Byte} {a : Nat} (h : a < 0x200 ∨ 0x200 + image.length ≤ a) :
    (State.reset.storeBytes 0x200 image).byteAt a = Memory.unlisted a :=
  State.byteAt_storeBytes_outside Memory.reset_wf h

/-- Settles O51: the image is stored into the reset state, so the registers are those of reset, and memory is the image and
outside it what unlisted memory reads as. -/
theorem constructGivesResetValues : Obligations.ConstructGivesResetValues := by
  intro image himage
  have hfit : 0x200 + image.length ≤ Config.memSize := by
    simp only [Config.maxImage, Config.memSize, Config.progBase] at himage ⊢; omega
  refine ⟨_, construct_ok himage, State.reset_readV, rfl, rfl, rfl, State.reset_readStack, rfl, rfl, State.reset_pix,
    State.reset_readKey, rfl, fun a ha => ?belowFont, Config.font_length, fun j hj => ?font, fun a hlo hhi => ?aboveFont,
    fun j hj => State.byteAt_storeBytes_inside Memory.reset_wf j hj hfit, fun a ha _ => ?aboveImage⟩
  case belowFont => rw [State.byteAt_reset_storeBytes_outside (.inl (by omega)), Memory.unlisted_below_font ha]
  case font =>
    have hlen := Config.font_length
    rw [State.byteAt_reset_storeBytes_outside (.inl (by omega)), Memory.unlisted_font j hj]
  case aboveFont => rw [State.byteAt_reset_storeBytes_outside (.inl hhi), Memory.unlisted_above_font hlo]
  case aboveImage => rw [State.byteAt_reset_storeBytes_outside (.inr ha), Memory.unlisted_above_font (by omega)]

end Sys2Proof.Machine
end

section
/-! CERTIFICATE. The statements about the arithmetic and shift instructions that write `VF` as a flag (41_alu.md). -/

namespace Sys2Proof.Machine

/-! ### Result and flag, read back (R110) -/

/-- The flag is written last: it is what `VF` reads even where `VF` is the destination. -/
theorem State.readV_vf_writeWithFlag (s : State) (x : Reg) (r f : Byte) : (s.writeWithFlag x r f).readV 15 = f := by
  simp [State.readV_writeWithFlag, vf]

theorem State.readV_dest_writeWithFlag (s : State) {x : Reg} (r f : Byte) (hx : x ≠ 15) :
    (s.writeWithFlag x r f).readV x = r := by
  simp [State.readV_writeWithFlag, vf, hx]

theorem State.readV_other_writeWithFlag (s : State) {x z : Reg} (r f : Byte) (hzx : z ≠ x) (hz : z ≠ 15) :
    (s.writeWithFlag x r f).readV z = s.readV z := by
  simp [State.readV_writeWithFlag, vf, hzx, hz]

/-! ### The flags -/

theorem flagByte_decide (p : Prop) [Decidable p] : flagByte (decide p) = if p then 1 else 0 := by
  simp [flagByte]

theorem carryFlag_eq (a b : Byte) : carryFlag a b = if a.toNat + b.toNat > 255 then 1 else 0 := flagByte_decide _

theorem greaterFlag_eq (a b : Byte) : greaterFlag a b = if a.toNat > b.toNat then 1 else 0 := flagByte_decide _

/-! ### The results -/

/-- A byte cut from an integer, negative ones included, is that integer modulo 256 (R123). -/
theorem toNat_byteOfInt (n : Int) : ((BitVec.ofInt 8 n).toNat : Int) = n % 256 := by
  rw [BitVec.toNat_ofInt]
  exact Int.toNat_of_nonneg (Int.emod_nonneg n (by decide))

theorem byteOfHalf_eq_shiftRight (a : Byte) : BitVec.ofNat 8 (a.toNat / 2) = a >>> 1 := by
  apply BitVec.eq_of_toNat_eq
  rw [BitVec.toNat_ofNat, BitVec.toNat_ushiftRight, Nat.shiftRight_one, Nat.mod_eq_of_lt (by omega)]

theorem byteOfDouble_eq_shiftLeft (a : Byte) : BitVec.ofNat 8 (2 * a.toNat) = a <<< 1 := by
  apply BitVec.eq_of_toNat_eq
  rw [BitVec.toNat_ofNat, BitVec.toNat_shiftLeft, Nat.shiftLeft_eq, Nat.pow_one, Nat.mul_comm]

/-- Each bit of a byte shifted right by one is its upper neighbour's old value, and bit 7 is 0 (R119). -/
theorem getLsbD_shiftRight_one (a : Byte) (k : Nat) :
    (a >>> 1).getLsbD k = (decide (k < 7) && a.getLsbD (k + 1)) := by
  rw [BitVec.getLsbD_ushiftRight, Nat.add_comm 1 k]
  by_cases h7 : k < 7
  · simp [h7]
  · simp [h7, BitVec.getLsbD_of_ge a (k + 1) (by omega)]

/-- Each bit of a byte shifted left by one is its lower neighbour's old value, and bit 0 is 0 (R121). -/
theorem getLsbD_shiftLeft_one (a : Byte) {k : Nat} (hk : k < 8) :
    (a <<< 1).getLsbD k = (decide (0 < k) && a.getLsbD (k - 1)) := by
  rw [BitVec.getLsbD_shiftLeft]
  simp [hk, Nat.pos_iff_ne_zero]

/-! ### The statements -/

/-- Settles O23: the sum and the carry are written by `writeWithFlag`, the carry last. -/
theorem addGivesSumAndCarry : Obligations.AddGivesSumAndCarry := by
  intro x y s
  refine ⟨_, rfl, fun hx => ?_, ?_, fun _ hzx hz => s.readV_other_writeWithFlag _ _ hzx hz,
    s.writeWithFlag_onlyChanges _ _ _⟩
  · rw [s.readV_dest_writeWithFlag _ _ hx, BitVec.toNat_ofNat]
  · rw [s.readV_vf_writeWithFlag, carryFlag_eq]

/-- Settles O24: the difference over the integers is cut to a byte, and the strict comparison is written last. -/
theorem subGivesDifferenceAndGreater : Obligations.SubGivesDifferenceAndGreater := by
  intro x y s
  refine ⟨_, rfl, fun hx => ?_, ?_, fun _ hzx hz => s.readV_other_writeWithFlag _ _ hzx hz,
    s.writeWithFlag_onlyChanges _ _ _⟩
  · rw [s.readV_dest_writeWithFlag _ _ hx, toNat_byteOfInt]
  · rw [s.readV_vf_writeWithFlag, greaterFlag_eq]

/-- Settles O26: halving and doubling are shifts by one, which move every bit to its neighbour's place, and the bit shifted out is
written last. -/
theorem shiftsMoveEveryBit : Obligations.ShiftsMoveEveryBit := by
  refine fun x y s => ⟨⟨_, rfl, fun hx k _ => ?_, s.readV_vf_writeWithFlag _ _ _,
      fun _ hzx hz => s.readV_other_writeWithFlag _ _ hzx hz, s.writeWithFlag_onlyChanges _ _ _⟩,
    ⟨_, rfl, fun hx k hk => ?_, s.readV_vf_writeWithFlag _ _ _,
      fun _ hzx hz => s.readV_other_writeWithFlag _ _ hzx hz, s.writeWithFlag_onlyChanges _ _ _⟩⟩
  · rw [s.readV_dest_writeWithFlag _ _ hx, byteOfHalf_eq_shiftRight, getLsbD_shiftRight_one]
  · rw [s.readV_dest_writeWithFlag _ _ hx, byteOfDouble_eq_shiftLeft, getLsbD_shiftLeft_one _ hk]

end Sys2Proof.Machine
end

section
/-! CERTIFICATE. The statements about the host's operations (60_exceptions.md): what `set_keypad` replaces, and what `get_display`
and `is_playing_sound` read. -/

namespace Sys2Proof.Machine

/-! ### The keypad snapshot (R172) -/

theorem State.writeKeys_onlyChanges (s : State) (pressed : Keypad) : OnlyChanges [.keys] s (s.writeKeys pressed) := by
  intro p hp; cases p <;> simp [Part.Same] at hp ⊢

/-- Settles O49: `set_keypad` is the one write of the keypad, whose reads and frame are those of `writeKeys`. -/
theorem setKeypadReplacesAll : Obligations.SetKeypadReplacesAll := fun pressed s =>
  ⟨rfl, s.writeKeys_readKey pressed, s.writeKeys_onlyChanges pressed⟩

/-! ### The display and the sound line (R173, R174) -/

/-- The sound line read as the spec words it; `isPlayingSound_iff` speaks of the timer's number. -/
theorem isPlayingSound_iff_ne_zero (s : State) : isPlayingSound s = true ↔ s.st ≠ 0 := bne_iff_ne

/-- Settles O50: both operations answer from the state and leave it; the display returned is `PIX` itself. -/
theorem displayAndSoundReads : Obligations.DisplayAndSoundReads := fun s =>
  ⟨⟨getDisplay s, rfl, fun _ _ => rfl⟩, ⟨isPlayingSound s, rfl, isPlayingSound_iff_ne_zero s⟩⟩

end Sys2Proof.Machine
end

section
/-! CERTIFICATE. The statement about the first instruction after reset (70_reset_and_hazards.md R193). -/

namespace Sys2Proof.Machine

/-! ### The opcode at `PC` is the word fetched -/

theorem State.opcodeAt.fetchWord_eq {s : State} {op : Word} (h : s.opcodeAt op) : s.fetchWord = some op := by
  obtain ⟨hpc, rfl⟩ := h
  exact State.fetchWord_some hpc

/-- Where the opcode at `PC` decodes, the step is the execution of the instruction (40_control_flow.md R90). -/
theorem State.opcodeAt.step_eq_exec {s : State} {op : Word} {i : Instr} (h : s.opcodeAt op) (hdecode : decode op = .ok i) :
    step s = exec i s.advance := by
  simp only [step, h.fetchWord_eq, hdecode]

/-! ### The statement -/

/-- An image that makes a machine fits (R191). -/
theorem length_le_of_construct_ok {image : List Byte} {s : State} (h : construct image = .ok s) :
    image.length ≤ Config.maxImage := by
  unfold construct at h
  split at h
  · cases h
  · exact Nat.le_of_not_lt ‹_›

/-- Settles O52: the values after `construct` are those of `constructGivesResetValues`, and bytes 0 and 1 of the image lie at
`PC` = 0x200; the word 0 decodes to the row of `SYS`, whose meaning is the decode failure (log 5). -/
theorem firstInstructionIsImageHead : Obligations.FirstInstructionIsImageHead := by
  refine ⟨fun b₀ b₁ rest s hs => ?image, fun s hzero => ?zeroWord⟩
  case image =>
    obtain ⟨t, ht, -, -, hpc, -, -, -, -, -, -, -, -, -, -, -, himage, hzeros⟩ :=
      constructGivesResetValues (b₀ :: b₁ :: rest) (length_le_of_construct_ok hs)
    obtain rfl : t = s := Except.ok.inj (ht.symm.trans hs)
    have hpcNat : t.pc.toNat = 0x200 := congrArg BitVec.toNat hpc
    have hhigh : t.byteAt 0x200 = b₀ := himage 0 (by simp)
    have hlow : t.byteAt (0x200 + 1) = b₁ := himage 1 (by simp)
    refine ⟨?_, himage, hzeros⟩
    unfold State.opcodeAt
    rw [hpcNat, hhigh, hlow]
    exact ⟨by decide, rfl⟩
  case zeroWord =>
    have hdecode : decode 0 = .ok (.sys 0) := by decide
    have hexec : exec (.sys 0) s.advance = .fault (.decodeFailure 0) := rfl
    exact (hzero.step_eq_exec hdecode).trans hexec

end Sys2Proof.Machine
end

section
/-! CERTIFICATE. The statements about the encoding (30_encoding.md): decoding undoes encoding and encoding undoes decoding, a word
matches one row of the opcode table, and which words are illegal. -/

namespace Sys2Proof

/-! ### Decoding the encoding of an instruction (R71 to R79) -/

/-- A word of family 0 that is neither `00E0` nor `00EE` is of the row `SYS` (R76, R86; log 5). -/
theorem decodeFamily0_sys {op : Word} (hcls : op ≠ 0x00E0) (hret : op ≠ 0x00EE) :
    decodeFamily0 op = .ok (.sys (nnnField op)) := by
  rw [decodeFamily0, if_neg hcls, if_neg hret]

theorem packNNN_eq_cls_iff (nnn : Addr12) : packNNN 0x0 nnn = 0x00E0 ↔ nnn = 0x0E0 :=
  ⟨fun e => by rw [← nnnField_packNNN 0x0 nnn, e]; decide, fun e => by rw [e]; decide⟩

theorem packNNN_eq_ret_iff (nnn : Addr12) : packNNN 0x0 nnn = 0x00EE ↔ nnn = 0x0EE :=
  ⟨fun e => by rw [← nnnField_packNNN 0x0 nnn, e]; decide, fun e => by rw [e]; decide⟩

theorem wellFormed_sys_iff (nnn : Addr12) : (Instr.sys nnn).wellFormed = true ↔ nnn ≠ 0x0E0 ∧ nnn ≠ 0x0EE := by
  simp [Instr.wellFormed]

theorem decode_sys {nnn : Addr12} (hcls : nnn ≠ 0x0E0) (hret : nnn ≠ 0x0EE) :
    decode (packNNN 0x0 nnn) = .ok (.sys nnn) := by
  have hfamily := decodeFamily0_sys (mt (packNNN_eq_cls_iff nnn).mp hcls) (mt (packNNN_eq_ret_iff nnn).mp hret)
  rw [nnnField_packNNN] at hfamily
  rw [decode, hiField_packNNN]
  exact hfamily

/-- The decoder finds the instruction again in its word: the row by the fixed fields, the operands in the others. -/
theorem decode_encode {i : Instr} (hwf : i.wellFormed = true) : decode (encode i) = .ok i := by
  cases i with
  | cls | ret => decide
  | sys nnn =>
    obtain ⟨hcls, hret⟩ := (wellFormed_sys_iff nnn).mp hwf
    exact decode_sys hcls hret
  | jp | call | seImm | sneImm | ldImm | addImm | ldI | jpV0 | rnd | drw => simp [decode, encode]
  | seReg | sneReg => simp [decode, encode, decodeZeroLow]
  | ldReg | orReg | andReg | xorReg | addReg | sub | shr | subn | shl => simp [decode, encode, decodeFamily8]
  | skp | sknp => simp [decode, encode, decodeFamilyE]
  | ldVxDT | ldVxK | ldDTVx | ldSTVx | addIVx | ldFVx | ldBVx | ldMemVx | ldVxMem => simp [decode, encode, decodeFamilyF]

theorem decodeBytes_bytes (op : Word) (rest : List Byte) :
    decodeBytes (highByte op :: lowByte op :: rest) = (decode op).map (·, rest) := by
  rw [decodeBytes, wordOfBytes_bytes]

/-- Settles O2: `decode_encode`, and the two bytes of a word are that word again. -/
theorem decodeOfEncodeIsSame : Obligations.DecodeOfEncodeIsSame := fun i rest hwf =>
  ⟨decode_encode hwf, by rw [decodeBytes_bytes, decode_encode hwf]; rfl⟩

/-! ### Encoding what a word decodes to (R72, R73) -/

theorem packNNN_of_hi {op : Word} {hi : Nibble} (h : (hiField op).val = hi.toNat) : packNNN hi (nnnField op) = op := by
  have hhi : BitVec.ofFin (hiField op) = hi := BitVec.eq_of_toNat_eq h
  rw [← hhi, packNNN_fields]

theorem packXKK_of_hi {op : Word} {hi : Nibble} (h : (hiField op).val = hi.toNat) :
    packXKK hi (xField op) (kkField op) = op := by
  have hhi : BitVec.ofFin (hiField op) = hi := BitVec.eq_of_toNat_eq h
  rw [← hhi, packXKK_fields]

theorem packXYN_of_hi {op : Word} {hi : Nibble} (h : (hiField op).val = hi.toNat) :
    packXYN hi (xField op) (yField op) (nField op) = op := by
  have hhi : BitVec.ofFin (hiField op) = hi := BitVec.eq_of_toNat_eq h
  rw [← hhi, packXYN_fields]

/-- Format `X`: the low byte is fixed. -/
theorem packX_of_hi {op : Word} {hi : Nibble} {kk : Byte} (h : (hiField op).val = hi.toNat)
    (hkk : (kkField op).toNat = kk.toNat) : packXKK hi (xField op) kk = op := by
  rw [← BitVec.eq_of_toNat_eq hkk, packXKK_of_hi h]

/-- Format `XY`: the low nibble is fixed. -/
theorem packXY_of_hi {op : Word} {hi n : Nibble} (h : (hiField op).val = hi.toNat)
    (hn : (nField op).toNat = n.toNat) : packXYN hi (xField op) (yField op) n = op := by
  rw [← BitVec.eq_of_toNat_eq hn, packXYN_of_hi h]

/-- The instruction is one of the machine, and `op` is its word. -/
def Instr.HasWord (i : Instr) (op : Word) : Prop := i.wellFormed = true ∧ encode i = op

theorem decodeFamily0_hasWord {op : Word} {i : Instr} (hhi : (hiField op).val = 0) (h : decodeFamily0 op = .ok i) :
    i.HasWord op := by
  have hword : packNNN 0x0 (nnnField op) = op := packNNN_of_hi hhi
  unfold decodeFamily0 at h
  split at h
  · cases h; exact ⟨rfl, Eq.symm ‹_›⟩
  split at h
  · cases h; exact ⟨rfl, Eq.symm ‹_›⟩
  · rename_i hcls hret
    cases h
    refine ⟨?_, hword⟩
    rw [← hword] at hcls hret
    exact (wellFormed_sys_iff _).mpr ⟨mt (packNNN_eq_cls_iff _).mpr hcls, mt (packNNN_eq_ret_iff _).mpr hret⟩

theorem decodeZeroLow_eq_ok {mk : Reg → Reg → Instr} {op : Word} {i : Instr} (h : decodeZeroLow mk op = .ok i) :
    nField op = 0 ∧ i = mk (xField op) (yField op) := by
  unfold decodeZeroLow at h
  split at h
  · cases h; exact ⟨‹_›, rfl⟩
  · cases h

theorem decodeFamily8_hasWord {op : Word} {i : Instr} (hhi : (hiField op).val = 8) (h : decodeFamily8 op = .ok i) :
    i.HasWord op := by
  unfold decodeFamily8 at h
  split at h <;> cases h <;> exact ⟨rfl, packXY_of_hi hhi ‹_›⟩

theorem decodeFamilyE_hasWord {op : Word} {i : Instr} (hhi : (hiField op).val = 14) (h : decodeFamilyE op = .ok i) :
    i.HasWord op := by
  unfold decodeFamilyE at h
  split at h <;> cases h <;> exact ⟨rfl, packX_of_hi hhi ‹_›⟩

theorem decodeFamilyF_hasWord {op : Word} {i : Instr} (hhi : (hiField op).val = 15) (h : decodeFamilyF op = .ok i) :
    i.HasWord op := by
  unfold decodeFamilyF at h
  split at h <;> cases h <;> exact ⟨rfl, packX_of_hi hhi ‹_›⟩

/-- What a word decodes to is a well-formed instruction, and the word is its encoding: family by family. -/
theorem decode_hasWord {op : Word} {i : Instr} (h : decode op = .ok i) : i.HasWord op := by
  have hlt := (hiField op).isLt
  unfold decode at h
  split at h
  case h_1 hhi => exact decodeFamily0_hasWord hhi h
  case h_2 hhi | h_3 hhi | h_11 hhi | h_12 hhi => cases h; exact ⟨rfl, packNNN_of_hi hhi⟩
  case h_4 hhi | h_5 hhi | h_7 hhi | h_8 hhi | h_13 hhi => cases h; exact ⟨rfl, packXKK_of_hi hhi⟩
  case h_6 hhi | h_10 hhi =>
    obtain ⟨hn, rfl⟩ := decodeZeroLow_eq_ok h
    exact ⟨rfl, packXY_of_hi hhi (congrArg BitVec.toNat hn)⟩
  case h_9 hhi => exact decodeFamily8_hasWord hhi h
  case h_14 hhi => cases h; exact ⟨rfl, packXYN_of_hi hhi⟩
  case h_15 hhi => exact decodeFamilyE_hasWord hhi h
  case h_16 =>
    simp only [imp_false] at *
    exact decodeFamilyF_hasWord (by omega) h

theorem encode_of_decode {op : Word} {i : Instr} (h : decode op = .ok i) : encode i = op := (decode_hasWord h).2

/-- Settles O3: `decode_hasWord`. That the word of a shift is found again rests on the decoded shift keeping `y` (log 10), and
that a word of `SYS` decodes at all on log 5. -/
theorem encodeOfDecodeIsSame : Obligations.EncodeOfDecodeIsSame := fun _ _ h => decode_hasWord h

/-- Settles O27: the meanings of the shifts do not name `y`; a word is the encoding of what it decodes to, so it is the only word
that decodes to it. -/
theorem shiftsIgnoreSecondRegister : Obligations.ShiftsIgnoreSecondRegister := by
  refine ⟨fun x y y' s => ⟨rfl, rfl⟩, fun x y => ⟨decode_encode rfl, decode_encode rfl⟩, fun op op' i h h' => ?_⟩
  exact (encode_of_decode h).symm.trans (encode_of_decode h')

/-! ### One row for each word (R86) -/

/-- The word of an instruction has the fixed bits of its row, format by format. -/
theorem encode_matches_row (i : Instr) : encode i &&& i.format.mask = i.pattern := by
  cases i with
  | cls | ret => rfl
  | sys nnn | jp nnn | call nnn | ldI nnn | jpV0 nnn => exact (Laws.MatchesTableRow.packNNN_masked _ nnn).trans rfl
  | seImm x kk | sneImm x kk | ldImm x kk | addImm x kk | rnd x kk =>
    exact (Laws.MatchesTableRow.packXKK_masked _ x kk).trans rfl
  | seReg x y | ldReg x y | orReg x y | andReg x y | xorReg x y | addReg x y | sub x y | shr x y | subn x y | shl x y
  | sneReg x y => exact (Laws.MatchesTableRow.packXY_masked _ x y _).trans rfl
  | drw x y n => exact (Laws.MatchesTableRow.packXYN_masked _ x y n).trans rfl
  | skp x | sknp x | ldVxDT x | ldVxK x | ldDTVx x | ldSTVx x | addIVx x | ldFVx x | ldBVx x | ldMemVx x | ldVxMem x =>
    exact (Laws.MatchesTableRow.packX_masked _ x _).trans rfl

section
variable {op mask w : Word} (h : op &&& mask = w)
include h

/-- A field that the mask keeps whole is the field of the masked word. -/
theorem extractLsb'_of_masked (start len : Nat) (hmask : mask.extractLsb' start len = BitVec.allOnes len) :
    op.extractLsb' start len = w.extractLsb' start len := by
  rw [← h, BitVec.extractLsb'_and, hmask, BitVec.and_allOnes]

theorem hiField_of_masked (hmask : mask.extractLsb' 12 4 = BitVec.allOnes 4) : (hiField op).val = w.toNat / 4096 := by
  rw [← hiField_val, hiField, hiField, extractLsb'_of_masked h 12 4 hmask]

theorem nField_of_masked (hmask : mask.extractLsb' 0 4 = BitVec.allOnes 4) : (nField op).toNat = w.toNat % 16 := by
  rw [← nField_toNat, nField, nField, extractLsb'_of_masked h 0 4 hmask]

theorem kkField_of_masked (hmask : mask.extractLsb' 0 8 = BitVec.allOnes 8) : (kkField op).toNat = w.toNat % 256 := by
  rw [← kkField_toNat, kkField, kkField, extractLsb'_of_masked h 0 8 hmask]

end

/-- Every row fixes the family. -/
theorem Format.mask_hi (f : Format) : f.mask.extractLsb' 12 4 = BitVec.allOnes 4 := by
  cases f <;> decide

/-- A word with the fixed bits of a row has that row's family, and its low nibble or low byte where the row fixes them, which is
all the decoder looks at. -/
theorem decode_of_matches_row {op : Word} {j : Instr} (h : op &&& j.format.mask = j.pattern)
    (hsys : j.pattern = 0 → op ≠ 0x00E0 ∧ op ≠ 0x00EE) : ∃ i, decode op = .ok i ∧ i.pattern = j.pattern := by
  have hhi := hiField_of_masked h j.format.mask_hi
  cases j with
  | cls | ret =>
    obtain rfl := (BitVec.and_allOnes (x := op)).symm.trans h
    exact ⟨_, rfl, rfl⟩
  | sys =>
    obtain ⟨hcls, hret⟩ := hsys rfl
    have hfamily : decode op = decodeFamily0 op := by simp [decode, hhi, Instr.pattern]
    exact ⟨_, hfamily.trans (decodeFamily0_sys hcls hret), rfl⟩
  | jp | call | seImm | sneImm | ldImm | addImm | ldI | jpV0 | rnd | drw => simp [decode, hhi, Instr.pattern]
  | seReg | sneReg =>
    have hn := nField_of_masked (mask := Format.xy.mask) h (by decide)
    simp [decode, hhi, Instr.pattern, decodeZeroLow, ← BitVec.toNat_inj, hn]
  | ldReg | orReg | andReg | xorReg | addReg | sub | shr | subn | shl =>
    have hn := nField_of_masked (mask := Format.xy.mask) h (by decide)
    simp [decode, hhi, Instr.pattern, decodeFamily8, hn]
  | skp | sknp =>
    have hkk := kkField_of_masked (mask := Format.x.mask) h (by decide)
    simp [decode, hhi, Instr.pattern, decodeFamilyE, hkk]
  | ldVxDT | ldVxK | ldDTVx | ldSTVx | addIVx | ldFVx | ldBVx | ldMemVx | ldVxMem =>
    have hkk := kkField_of_masked (mask := Format.x.mask) h (by decide)
    simp [decode, hhi, Instr.pattern, decodeFamilyF, hkk]

/-- Settles O4: `decode_of_matches_row`, and a word that decodes is the encoding of an instruction, so it has the fixed bits
of its row. -/
theorem everyWordMatchesAtMostOneRow : Obligations.EveryWordMatchesAtMostOneRow := by
  refine ⟨fun _ _ => decode_of_matches_row, fun op i h => ?_⟩
  rw [← encode_of_decode h, encode_matches_row]

/-! ### The illegal encodings (R82) -/

theorem decodeZeroLow_eq_error_iff (mk : Reg → Reg → Instr) (op : Word) :
    decodeZeroLow mk op = .error (.noMatch op) ↔ op.toNat % 16 ≠ 0 := by
  rw [← nField_toNat]
  simp [decodeZeroLow, ← BitVec.toNat_inj]

theorem decodeFamily8_eq_error_iff (op : Word) :
    decodeFamily8 op = .error (.noMatch op) ↔ op.toNat % 16 ∈ [0x8, 0x9, 0xA, 0xB, 0xC, 0xD, 0xF] := by
  have hlt : (nField op).toNat < 16 := (nField op).isLt
  rw [← nField_toNat, decodeFamily8]
  generalize (nField op).toNat = n at hlt ⊢
  interval_cases n <;> simp

theorem decodeFamilyE_eq_error_iff (op : Word) :
    decodeFamilyE op = .error (.noMatch op) ↔ op.toNat % 256 ∉ [0x9E, 0xA1] := by
  rw [← kkField_toNat, decodeFamilyE]
  split <;> simp_all

theorem decodeFamilyF_eq_error_iff (op : Word) :
    decodeFamilyF op = .error (.noMatch op) ↔
      op.toNat % 256 ∉ [0x07, 0x0A, 0x15, 0x18, 0x1E, 0x29, 0x33, 0x55, 0x65] := by
  rw [← kkField_toNat, decodeFamilyF]
  split <;> simp_all

theorem decodeFamily0_ne_error (op : Word) : decodeFamily0 op ≠ .error (.noMatch op) := by
  unfold decodeFamily0
  split
  · nofun
  · split <;> nofun

/-- The words that match no row, family by family. -/
theorem decode_eq_error_iff (op : Word) :
    decode op = .error (.noMatch op) ↔
      (op.toNat / 4096 = 0x5 ∧ op.toNat % 16 ≠ 0) ∨
      (op.toNat / 4096 = 0x8 ∧ op.toNat % 16 ∈ [0x8, 0x9, 0xA, 0xB, 0xC, 0xD, 0xF]) ∨
      (op.toNat / 4096 = 0x9 ∧ op.toNat % 16 ≠ 0) ∨
      (op.toNat / 4096 = 0xE ∧ op.toNat % 256 ∉ [0x9E, 0xA1]) ∨
      (op.toNat / 4096 = 0xF ∧ op.toNat % 256 ∉ [0x07, 0x0A, 0x15, 0x18, 0x1E, 0x29, 0x33, 0x55, 0x65]) := by
  have hlt : op.toNat / 4096 < 16 := hiField_val op ▸ (hiField op).isLt
  rw [decode, hiField_val]
  generalize op.toNat / 4096 = hi at hlt ⊢
  -- One goal for each value of the family selector, decided by the lemma about that family.
  interval_cases hi <;>
    simp [decodeFamily0_ne_error, decodeZeroLow_eq_error_iff, decodeFamily8_eq_error_iff, decodeFamilyE_eq_error_iff,
      decodeFamilyF_eq_error_iff]

/-- The words of the row `SYS` (R76, R86). -/
theorem decode_eq_sys_iff (op : Word) :
    (∃ nnn, decode op = .ok (.sys nnn)) ↔ op.toNat / 4096 = 0x0 ∧ op ≠ 0x00E0 ∧ op ≠ 0x00EE := by
  constructor
  · rintro ⟨nnn, h⟩
    obtain ⟨hwf, rfl⟩ := decode_hasWord h
    obtain ⟨hcls, hret⟩ := (wellFormed_sys_iff nnn).mp hwf
    refine ⟨?_, mt (packNNN_eq_cls_iff nnn).mp hcls, mt (packNNN_eq_ret_iff nnn).mp hret⟩
    rw [← hiField_val]; exact hiField_packNNN 0x0 nnn
  · rintro ⟨hhi, hcls, hret⟩
    refine ⟨nnnField op, ?_⟩
    rw [decode, hiField_val, hhi]
    exact decodeFamily0_sys hcls hret

theorem decode_error_noMatch {op : Word} {e : DecodeError} (h : decode op = .error e) : e = .noMatch op := by
  unfold decode decodeFamily0 decodeZeroLow decodeFamily8 decodeFamilyE decodeFamilyF at h
  repeat' split at h
  all_goals cases h
  all_goals rfl

/-- What the spec's decoder answers: the instruction of the row matched, unless the row is `SYS` (R81, R91; log 5). -/
theorem decodeVerdict_cases (op : Word) :
    (((∃ nnn, decode op = .ok (.sys nnn)) ∨ decode op = .error (.noMatch op)) ∧ decodeVerdict op = .error (.noMatch op)) ∨
    (∃ i, decode op = .ok i ∧ (∀ nnn, i ≠ .sys nnn) ∧ decodeVerdict op = .ok i) := by
  unfold decodeVerdict
  split
  next nnn h => exact .inl ⟨.inl ⟨nnn, h⟩, rfl⟩
  next hsys =>
    cases h : decode op with
    | error e => obtain rfl := decode_error_noMatch h; exact .inl ⟨.inr rfl, rfl⟩
    | ok i => exact .inr ⟨i, rfl, fun nnn e => hsys nnn (e ▸ h), rfl⟩

theorem decodeVerdict_eq_error_iff (op : Word) :
    decodeVerdict op = .error (.noMatch op) ↔
      (∃ nnn, decode op = .ok (.sys nnn)) ∨ decode op = .error (.noMatch op) := by
  obtain ⟨hfails, hverdict⟩ | ⟨i, hdecode, hsys, hverdict⟩ := decodeVerdict_cases op
  · simp [hfails, hverdict]
  · simp [hdecode, hsys, hverdict]

/-- A word whose verdict is an instruction decodes to it. -/
theorem decode_of_decodeVerdict {op : Word} {i : Instr} (h : decodeVerdict op = .ok i) : decode op = .ok i := by
  obtain ⟨-, hverdict⟩ | ⟨j, hdecode, -, hverdict⟩ := decodeVerdict_cases op
  · rw [hverdict] at h; cases h
  · rw [hdecode, ← hverdict, h]

/-- Settles O5: the words of `SYS` and the words that match no row, family by family. -/
theorem illegalEncodingsAreExactlyThese : Obligations.IllegalEncodingsAreExactlyThese := fun op => by
  refine ⟨?_, (decodeVerdict_cases op).imp And.right fun ⟨i, _, _, h⟩ => ⟨i, h⟩⟩
  rw [decodeVerdict_eq_error_iff, decode_eq_sys_iff, decode_eq_error_iff]

/-- Settles O1: the decoder evaluated on each word. -/
theorem opcodeWordsDecode : Obligations.OpcodeWordsDecode := by
  unfold Obligations.OpcodeWordsDecode
  decide

end Sys2Proof
end

section
/-! SUPPORT. When an instruction faults, and that it completes everywhere else (60_exceptions.md R160, R164 to R168). -/

namespace Sys2Proof.Machine

/-! ### The outcome a fault condition allows -/

/-- The fault where there is one, and a next state where there is none: the form of every row of the complete list (R160). -/
def FaultsExactly (fault : Option Fault) (r : Result) : Prop :=
  (∀ f, fault = some f → r = .fault f) ∧ (fault = none → ∃ t, r = .next t)

theorem FaultsExactly.of_next (t : State) : FaultsExactly none (.next t) := ⟨nofun, fun _ => ⟨t, rfl⟩⟩

theorem FaultsExactly.of_fault (f : Fault) : FaultsExactly (some f) (.fault f) :=
  ⟨fun _ e => congrArg _ (Option.some.inj e), nofun⟩

theorem FaultsExactly.ite {c : Prop} [Decidable c] (f : Fault) (t : State) :
    FaultsExactly (if c then some f else none) (if c then raise f else .next t) := by
  split
  · exact .of_fault f
  · exact .of_next t

theorem State.withDataRange_faultsExactly (s : State) (k : Nat) (t : State) :
    FaultsExactly (s.dataFault k) (s.withDataRange k (.next t)) := by
  unfold State.dataFault
  obtain ⟨hfits, e⟩ | ⟨hk, hout, e⟩ := s.withDataRange_cases k (.next t)
  · rw [e, if_neg (by omega)]; exact .of_next t
  · rw [e, if_pos ⟨hk, hout⟩]; exact .of_fault _

theorem State.withKey_faultsExactly (s : State) (x : Reg) {go : Fin 16 → Result} (hgo : ∀ k, ∃ t, go k = .next t) :
    FaultsExactly (if (s.readV x).toNat > 15 then some (.keyIndexOutOfRange (s.readV x)) else none) (s.withKey x go) := by
  by_cases h : (s.readV x).toNat < 16
  · obtain ⟨t, e⟩ := hgo ⟨_, h⟩
    rw [if_neg (by omega), State.withKey_ok go h, e]; exact .of_next t
  · rw [if_pos (by omega), State.withKey_fault go h]; exact .of_fault _

theorem State.withGlyph_faultsExactly (s : State) (x : Reg) {go : Fin 16 → Result} (hgo : ∀ d, ∃ t, go d = .next t) :
    FaultsExactly (if (s.readV x).toNat > 15 then some (.glyphIndexOutOfRange (s.readV x)) else none) (s.withGlyph x go) := by
  by_cases h : (s.readV x).toNat < 16
  · obtain ⟨t, e⟩ := hgo ⟨_, h⟩
    rw [if_neg (by omega), State.withGlyph_ok go h, e]; exact .of_next t
  · rw [if_pos (by omega), State.withGlyph_fault go h]; exact .of_fault _

/-! ### Every instruction -/

theorem execCall_faultsExactly (nnn : Addr12) (s : State) : FaultsExactly ((Instr.call nnn).faultIn s) (execCall nnn s) := by
  unfold Instr.faultIn execCall
  by_cases h : s.sp = 15
  · simp only [h, if_true]; exact .of_fault _
  · simp only [h, if_false]; exact .of_next _

/-- The waiting instruction completes with a key and without. -/
theorem execLdVxK_completes (x : Reg) (s : State) : ∃ t, execLdVxK x s = .next t := by
  unfold execLdVxK
  split <;> exact ⟨_, rfl⟩

theorem exec_faultsExactly (i : Instr) (s : State) : FaultsExactly (i.faultIn s) (exec i s) := by
  cases i with
  | sys => exact .of_fault _
  | call nnn => exact execCall_faultsExactly nnn s
  | ret => exact .ite _ _
  | drw | ldBVx | ldMemVx | ldVxMem => exact s.withDataRange_faultsExactly _ _
  | skp x => exact s.withKey_faultsExactly x (go := fun k => skipIf (s.readKey k) s) fun _ => ⟨_, rfl⟩
  | sknp x => exact s.withKey_faultsExactly x (go := fun k => skipIf (!s.readKey k) s) fun _ => ⟨_, rfl⟩
  | ldFVx x => exact s.withGlyph_faultsExactly x (go := fun d => .next (s.writeI (glyphAddr d))) fun _ => ⟨_, rfl⟩
  | ldVxK x => obtain ⟨t, h⟩ := execLdVxK_completes x s; exact ⟨nofun, fun _ => ⟨t, h⟩⟩
  | cls | jp | seImm | sneImm | seReg | sneReg | ldImm | addImm | ldReg | orReg | andReg | xorReg | addReg | sub | shr | subn
  | shl | rnd | ldVxDT | ldDTVx | ldSTVx | addIVx | ldI | jpV0 => exact .of_next _

/-- No instruction is refused: it completes or faults (R168). -/
theorem exec_cases (i : Instr) (s : State) :
    (∃ t, exec i s = .next t) ∨ ∃ f, i.faultIn s = some f ∧ exec i s = .fault f := by
  obtain ⟨hfault, hnext⟩ := exec_faultsExactly i s
  cases h : i.faultIn s with
  | none => exact .inl (hnext h)
  | some f => exact .inr ⟨f, rfl, hfault f h⟩

/-- No instruction raises a fetch fault (R166). -/
theorem faultIn_ne_fetch {i : Instr} {s : State} {a : Nat} : i.faultIn s ≠ some (.memoryOutOfRange .fetch a) := by
  cases i <;> simp [Instr.faultIn, State.dataFault]

theorem exec_fault_ne_fetch {i : Instr} {s : State} {f : Fault} (h : exec i s = .fault f) (a : Nat) :
    f ≠ .memoryOutOfRange .fetch a := by
  obtain ⟨t, e⟩ | ⟨g, hg, e⟩ := exec_cases i s
  · rw [e] at h; cases h
  · rw [e] at h; cases h
    rintro rfl
    exact faultIn_ne_fetch hg

end Sys2Proof.Machine
end

section
/-! SUPPORT. What an instruction that completes leaves of the registers, the call stack and memory, where its row names the piece
but not the whole of it (10_state.md R26, R34, R35; 20_memory.md R65). -/

namespace Sys2Proof.Machine

/-- Only the destination, `VF` of a flag writer, and `V[0]` to `V[x]` of `LD Vx, [I]` may change (R35, R135). -/
theorem exec_readV {i : Instr} {s t : State} (h : exec i s = .next t) {r : Reg} (hr : i.mayWriteReg r = false) :
    t.readV r = s.readV r := by
  have hframe : Part.regs ∉ i.mayWrite → t.readV r = s.readV r := fun hregs => by
    rw [State.readV, State.readV, exec_onlyChanges h .regs hregs]
  cases i
  case ldImm | addImm | ldReg | orReg | andReg | xorReg | ldVxDT =>
    cases h; exact s.readV_writeV_ne _ (by simpa [Instr.mayWriteReg] using hr)
  case rnd =>
    cases h
    rw [State.readV_writeV_ne _ _ (by simpa [Instr.mayWriteReg] using hr), State.consumeDraw_readV]
  case addReg | sub | shr | subn | shl =>
    cases h
    obtain ⟨hx, hvf⟩ : r ≠ _ ∧ r ≠ vf := by simpa [Instr.mayWriteReg] using hr
    exact s.readV_other_writeWithFlag _ _ hx hvf
  case drw =>
    obtain ⟨-, ⟨⟩⟩ := State.withDataRange_next h
    exact State.readV_writeV_ne _ _ (by simpa [Instr.mayWriteReg] using hr)
  case ldVxK =>
    obtain ⟨k, -, rfl⟩ | ⟨-, rfl⟩ := execLdVxK_next h
    · exact s.readV_writeV_ne _ (by simpa [Instr.mayWriteReg] using hr)
    · rfl
  case ldVxMem =>
    obtain ⟨-, ⟨⟩⟩ := State.withDataRange_next h
    rw [State.writeRegs_readV, State.regsLoaded_get, if_neg (by simpa [Instr.mayWriteReg] using hr)]
  all_goals exact hframe (by simp [Instr.mayWrite])

/-- `CALL` alone writes a slot: the one it moves to, never slot 0, with the post-fetch `PC` (R27). -/
theorem exec_readStack {i : Instr} {s t : State} (h : exec i s = .next t) (k : Fin 16) :
    t.readStack k = s.readStack k ∨ k ≠ 0 ∧ t.readStack k = s.pc := by
  have hframe : Part.callStack ∉ i.mayWrite → t.readStack k = s.readStack k := fun hstack => by
    rw [State.readStack, State.readStack, (exec_onlyChanges h .callStack hstack).2]
  cases i
  case call =>
    obtain ⟨hsp, rfl⟩ := execCall_next h
    rw [State.writePc_readStack, State.readStack_push]
    by_cases hk : k = s.sp + 1
    · exact .inr ⟨by omega, if_pos hk⟩
    · exact .inl (if_neg hk)
  case ret => obtain ⟨-, rfl⟩ := execRet_next h; exact .inl rfl
  all_goals exact .inl (hframe (by simp [Instr.mayWrite]))

/-- Memory is written by storing bytes from `I` up, as many as the instruction stores (R65, R133, R134). -/
theorem exec_mem {i : Instr} {s t : State} (h : exec i s = .next t) :
    ∃ bytes, bytes.length = i.storedBytes ∧ t.mem = s.mem.writeBytes s.i.toNat bytes := by
  cases i
  case ldBVx | ldMemVx => obtain ⟨-, ⟨⟩⟩ := State.withDataRange_next h; exact ⟨_, by simp [Instr.storedBytes], rfl⟩
  case ret => obtain ⟨-, rfl⟩ := execRet_next h; exact ⟨[], rfl, rfl⟩
  case call => obtain ⟨-, rfl⟩ := execCall_next h; exact ⟨[], rfl, rfl⟩
  case seImm | sneImm | seReg | sneReg => obtain rfl := skipIf_next h; exact ⟨[], rfl, rfl⟩
  case skp => obtain ⟨k, -, rfl⟩ := execSkp_next h; exact ⟨[], rfl, rfl⟩
  case sknp => obtain ⟨k, -, rfl⟩ := execSknp_next h; exact ⟨[], rfl, rfl⟩
  case ldFVx => obtain ⟨d, -, rfl⟩ := execLdFVx_next h; exact ⟨[], rfl, rfl⟩
  case ldVxK => obtain ⟨k, -, rfl⟩ | ⟨-, rfl⟩ := execLdVxK_next h <;> exact ⟨[], rfl, rfl⟩
  case drw | ldVxMem => obtain ⟨-, ⟨⟩⟩ := State.withDataRange_next h; exact ⟨[], rfl, rfl⟩
  case rnd => cases h; exact ⟨[], rfl, s.consumeDraw_mem⟩
  case sys => cases h
  all_goals cases h; exact ⟨[], rfl, rfl⟩

theorem exec_keeps_wf {i : Instr} {s t : State} (h : exec i s = .next t) (hwf : s.mem.wf = true) : t.mem.wf = true := by
  obtain ⟨bytes, -, hmem⟩ := exec_mem h
  rw [hmem]
  exact Memory.writeBytes_keeps_wf hwf _ bytes

/-- Outside the bytes it stores to, an instruction leaves memory as it was (R65). -/
theorem exec_byteAt_outside {i : Instr} {s t : State} (h : exec i s = .next t) (hwf : s.mem.wf = true) {a : Nat}
    (ha : a < s.i.toNat ∨ s.i.toNat + i.storedBytes ≤ a) : t.byteAt a = s.byteAt a := by
  obtain ⟨bytes, hlen, hmem⟩ := exec_mem h
  rw [State.byteAt, State.byteAt, hmem]
  exact Memory.read_writeBytes_outside hwf (by rwa [hlen])

end Sys2Proof.Machine
end

section
/-! SUPPORT. The step as the host sees it: when it faults, what a fault leaves, and where `PC` goes (40_control_flow.md R90;
60_exceptions.md R160, R161). -/

namespace Sys2Proof.Machine

/-! ### The step, fault by fault -/

theorem step_fetchFault {s : State} (h : Config.memSize ≤ s.pc.toNat + 1) :
    step s = .fault (.memoryOutOfRange .fetch s.pc.toNat) := by
  rw [step, State.fetchWord_none h]; rfl

/-- Where the verdict on the opcode is a failure the step is that failure, though `decode` gives the row of `SYS` (log 5). -/
theorem State.opcodeAt.step_eq_decodeFailure {s : State} {op : Word} (h : s.opcodeAt op)
    (hverdict : decodeVerdict op = .error (.noMatch op)) : step s = .fault (.decodeFailure op) := by
  obtain ⟨nnn, hsys⟩ | herror := (decodeVerdict_eq_error_iff op).mp hverdict
  · obtain rfl := encode_of_decode hsys
    rw [h.step_eq_exec hsys]; rfl
  · rw [step, h.fetchWord_eq]
    simp only [herror, raise]

/-- A step is never refused. -/
theorem step_completes_or_faults (s : State) : (∃ t, step s = .next t) ∨ ∃ f, step s = .fault f := by
  obtain ⟨-, e⟩ | ⟨op, -, -, e⟩ | ⟨op, i, -, -, e⟩ := step_cases s
  · exact .inr ⟨_, e⟩
  · exact .inr ⟨_, e⟩
  · rw [e]
    exact (exec_cases i s.advance).imp_right fun ⟨f, _, h⟩ => ⟨f, h⟩

/-- A fault that is not the fetch's comes after a fetch (R168). -/
theorem pc_lt_of_step_fault {s : State} {f : Fault} (h : step s = .fault f) (hf : ∀ a, f ≠ .memoryOutOfRange .fetch a) :
    s.pc.toNat + 1 < Config.memSize := by
  obtain ⟨-, e⟩ | ⟨op, hfetch, -, -⟩ | ⟨op, i, hfetch, -, -⟩ := step_cases s
  · rw [e] at h; cases h; exact absurd rfl (hf _)
  · exact (State.fetchWord_eq_some hfetch).1
  · exact (State.fetchWord_eq_some hfetch).1

/-! ### What a fault leaves (R161) -/

@[simp] theorem State.afterFault_fetch (s : State) (a : Nat) : s.afterFault (.memoryOutOfRange .fetch a) = s := rfl

theorem State.afterFault_of_ne_fetch (s : State) {f : Fault} (hf : ∀ a, f ≠ .memoryOutOfRange .fetch a) :
    s.afterFault f = s.writePc (s.pc + 2) := by
  cases f with
  | memoryOutOfRange kind a =>
    cases kind with
    | fetch => exact absurd rfl (hf a)
    | data => rfl
  | decodeFailure | stackOverflow | stackUnderflow | keyIndexOutOfRange | glyphIndexOutOfRange => rfl

theorem State.afterFault_onlyChanges (s : State) (f : Fault) : OnlyChanges [.pc] s (s.afterFault f) := by
  by_cases hf : ∃ a, f = .memoryOutOfRange .fetch a
  · obtain ⟨a, rfl⟩ := hf
    exact s.writePc_onlyChanges s.pc
  · rw [s.afterFault_of_ne_fetch fun a e => hf ⟨a, e⟩]
    exact s.writePc_onlyChanges _

/-! ### The host's step (log 1, log 4) -/

theorem hostStep_of_next {d : Byte} {s t : State} (h : step (s.supply [d]) = .next t) :
    hostStep d s = (t.supply s.entropyIn, .ok) := by
  rw [hostStep, h]

theorem hostStep_of_fault {d : Byte} {s : State} {f : Fault} (h : step (s.supply [d]) = .fault f) :
    hostStep d s = (s.afterFault f, .fault f) := by
  rw [hostStep, h]

/-- Everything the host's step can do. -/
theorem hostStep_cases (d : Byte) (s : State) :
    (∃ t, step (s.supply [d]) = .next t ∧ hostStep d s = (t.supply s.entropyIn, .ok)) ∨
    ∃ f, step (s.supply [d]) = .fault f ∧ hostStep d s = (s.afterFault f, .fault f) :=
  (step_completes_or_faults (s.supply [d])).imp (fun ⟨t, h⟩ => ⟨t, h, hostStep_of_next h⟩)
    fun ⟨f, h⟩ => ⟨f, h, hostStep_of_fault h⟩

/-- Supplying a draw does not move the opcode at `PC`. -/
theorem State.opcodeAt.supply {s : State} {op : Word} (h : s.opcodeAt op) (bytes : List Byte) :
    (s.supply bytes).opcodeAt op := h

/-! ### Where `PC` goes (10_state.md R24) -/

@[simp] theorem zextAddr_toNat (nnn : Addr12) : (zextAddr nnn).toNat = nnn.toNat := by
  have := nnn.isLt
  rw [zextAddr, BitVec.toNat_setWidth]; omega

@[simp] theorem zextByte_toNat (b : Byte) : (zextByte b).toNat = b.toNat := by
  have := b.isLt
  rw [zextByte, BitVec.toNat_setWidth]; omega

/-- The sum of an address and a byte does not wrap (R99). -/
theorem jumpOffset_toNat (nnn : Addr12) (b : Byte) : (zextAddr nnn + zextByte b).toNat = nnn.toNat + b.toNat := by
  have := nnn.isLt
  have := b.isLt
  rw [BitVec.toNat_add, zextAddr_toNat, zextByte_toNat]; omega

/-- The values R24's table allows, by what they are made of. -/
theorem pcAfter_cases (i : Instr) (s : State) :
    i.pcAfter s = s.pc ∨ i.pcAfter s = s.pc + 2 ∨ i.pcAfter s = s.pc - 2 ∨ i.pcAfter s = s.readStack s.sp ∨
    (∃ nnn, (i = .jp nnn ∨ i = .call nnn) ∧ (i.pcAfter s).toNat = nnn.toNat) ∨
    ∃ nnn, i = .jpV0 nnn ∧ (i.pcAfter s).toNat = nnn.toNat + (s.readV 0).toNat := by
  cases i with
  | jp nnn => exact .inr (.inr (.inr (.inr (.inl ⟨nnn, .inl rfl, zextAddr_toNat nnn⟩))))
  | call nnn => exact .inr (.inr (.inr (.inr (.inl ⟨nnn, .inr rfl, zextAddr_toNat nnn⟩))))
  | jpV0 nnn => exact .inr (.inr (.inr (.inr (.inr ⟨nnn, rfl, jumpOffset_toNat nnn _⟩))))
  | ret => exact .inr (.inr (.inr (.inl rfl)))
  | seImm | sneImm | seReg | sneReg | skp | sknp => exact (ite_eq_or_eq _ _ _).elim (fun h => .inr (.inl h)) .inl
  | ldVxK => exact (ite_eq_or_eq _ _ _).imp_right fun h => .inr (.inl h)
  | cls | sys | ldImm | addImm | ldReg | orReg | andReg | xorReg | addReg | sub | shr | subn | shl | rnd | drw | ldI | ldVxDT
  | ldDTVx | ldSTVx | addIVx | ldFVx | ldBVx | ldMemVx | ldVxMem => exact .inl rfl

end Sys2Proof.Machine
end

section
/-! CERTIFICATE. The statements about the step and what a fault leaves (40_control_flow.md section 1;
60_exceptions.md section 1). -/

namespace Sys2Proof.Machine

/-- Settles O7: the fetch fault, the decode failure and the instruction's own answer, each as `hostStep` passes it on; an
instruction answers a next state or a fault that is not the fetch's. -/
theorem stepIsFetchDecodeExecute : Obligations.StepIsFetchDecodeExecute := by
  refine fun d s => ⟨fun hpc => hostStep_of_fault (step_fetchFault hpc),
    fun op hop hverdict => hostStep_of_fault (hop.supply [d] |>.step_eq_decodeFailure hverdict),
    fun op i hop hverdict => ?_⟩
  have hstep : step (s.supply [d]) = exec i ((s.writePc (s.pc + 2)).supply [d]) :=
    (hop.supply [d]).step_eq_exec (decode_of_decodeVerdict hverdict)
  refine ⟨fun t h => hostStep_of_next (hstep.trans h), fun f h => ?_,
    (exec_cases i _).imp_right fun ⟨f, _, h⟩ => ⟨f, h⟩⟩
  rw [hostStep_of_fault (hstep.trans h), s.afterFault_of_ne_fetch (exec_fault_ne_fetch h)]

/-- Settles O10: the reply names the fault, and `afterFault` says what it leaves. -/
theorem faultLeavesAllButPc : Obligations.FaultLeavesAllButPc := by
  intro d s f hreply
  obtain ⟨t, -, e⟩ | ⟨g, -, e⟩ := hostStep_cases d s
  · rw [e] at hreply; cases hreply
  · rw [e] at hreply ⊢
    cases hreply
    refine ⟨fun ⟨a, ha⟩ => ha ▸ s.afterFault_fetch a, fun hf => ⟨?_, s.afterFault_onlyChanges f⟩⟩
    rw [s.afterFault_of_ne_fetch hf, State.writePc_pc]

/-- Settles O11, by induction on the draws: the fetch fault leaves the state in which it was raised. -/
theorem fetchFaultRepeats : Obligations.FetchFaultRepeats := by
  intro draws s hpc
  have hstep : ∀ d, hostStep d s = (s, .fault (.memoryOutOfRange .fetch s.pc.toNat)) :=
    fun d => hostStep_of_fault (step_fetchFault hpc)
  induction draws with
  | nil => exact ⟨rfl, rfl⟩
  | cons d rest ih =>
    obtain ⟨hreplies, hstate⟩ := ih
    simp [observe, runOps, applyOp, hstep, hreplies, hstate]

/-- Settles O6: the opcode at `PC` is the word fetched. -/
theorem stepRunsDecodedInstruction : Obligations.StepRunsDecodedInstruction := fun s _ hpc hdecode =>
  State.opcodeAt.step_eq_exec (s := s) ⟨hpc, rfl⟩ hdecode

/-- Settles O8: a decode failure is not the fetch's fault, so it leaves `PC` past the word. -/
theorem decodeFailureCarriesOpcode : Obligations.DecodeFailureCarriesOpcode := by
  intro d s op hop hverdict
  have hhost := hostStep_of_fault ((hop.supply [d]).step_eq_decodeFailure hverdict)
  rw [hhost]
  exact ⟨hop.step_eq_decodeFailure hverdict, rfl, rfl, s.afterFault_onlyChanges _⟩

/-- Settles O9: the meaning of `SYS` is the fault, and its word decodes to it where it is not `00E0` or `00EE` (log 5). -/
theorem systemCallIsDecodeFailure : Obligations.SystemCallIsDecodeFailure := by
  refine ⟨fun _ _ => rfl, fun nnn s hcls hret hop => ?_⟩
  rw [hop.step_eq_exec (decode_sys hcls hret)]; rfl

/-- Settles O20: R24's table has `PC` on an even address wherever its parts are even, and `CALL` stacks the post-fetch `PC`. -/
theorem pcStaysEven : Obligations.PcStaysEven := by
  intro s t hstep hpc hstack hjump hoffset
  obtain ⟨op, i, hfetch, hdecode, hexec⟩ := step_next hstep
  have hop : s.opcodeAt (encode i) := encode_of_decode hdecode ▸ State.fetchWord_eq_some hfetch
  have hnext : (s.pc + 2).toNat % 2 = 0 := by rw [BitVec.toNat_add]; simp; omega
  refine ⟨?_, fun k => ?_⟩
  · rw [exec_pc hexec]
    obtain h | h | h | h | ⟨nnn, hi, h⟩ | ⟨nnn, rfl, h⟩ := pcAfter_cases i s.advance <;> rw [h]
    · exact hnext
    · rw [State.advance_pc, BitVec.toNat_add]; simp; omega
    · simpa using hpc
    · exact hstack _
    · refine hjump nnn ?_
      obtain rfl | rfl := hi
      · exact .inl hop
      · exact .inr hop
    · exact hoffset nnn hop
  · obtain h | ⟨-, h⟩ := exec_readStack hexec k <;> rw [h]
    · exact hstack k
    · exact hnext

/-- Settles O30: `exec_remap` with the supplied bytes and the counter replaced. -/
theorem onlyRandomReadsEntropy : Obligations.OnlyRandomReadsEntropy := fun i s bytes n hi =>
  exec_remap (fSt := id) (fKey := id) (fIn := fun _ => bytes) (fCount := fun _ => n) i s (fun _ _ => rfl) (fun _ _ => rfl)
    fun x kk e => absurd e (hi x kk)

end Sys2Proof.Machine
end

section
/-! CERTIFICATE. The statements about the timer subsystem and the reset operation (60_exceptions.md section 3;
70_reset_and_hazards.md). -/

namespace Sys2Proof.Machine

theorem tick_onlyChanges (s : State) : OnlyChanges [.delay, .sound] s (tick s) :=
  (s.writeDt_onlyChanges _).trans (State.writeSt_onlyChanges _ _)

theorem runOps_ticks (n : Nat) (s : State) :
    (runOps s (List.replicate n .tick)).dt.toNat = s.dt.toNat - n ∧
    (runOps s (List.replicate n .tick)).st.toNat = s.st.toNat - n := by
  induction n generalizing s with
  | zero => exact ⟨rfl, rfl⟩
  | succ n ih =>
    have htickDt : (tick s).dt.toNat = s.dt.toNat - 1 := countDown_toNat s.dt
    have htickSt : (tick s).st.toNat = s.st.toNat - 1 := countDown_toNat s.st
    obtain ⟨hdt, hst⟩ := ih (tick s)
    rw [List.replicate_succ, runOps, applyOp, hdt, hst, htickDt, htickSt]
    omega

/-- A host step ran the instruction at `PC`, or changed `PC` alone. -/
theorem hostStep_ran_or_onlyChanges_pc (d : Byte) (s : State) :
    (∃ op i t, s.opcodeAt op ∧ decode op = .ok i ∧ exec i (s.supply [d]).advance = .next t ∧
      (hostStep d s).1 = t.supply s.entropyIn) ∨
    OnlyChanges [.pc] s (hostStep d s).1 := by
  obtain ⟨t, hstep, e⟩ | ⟨f, -, e⟩ := hostStep_cases d s <;> rw [e]
  · obtain ⟨op, i, hfetch, hdecode, hexec⟩ := step_next hstep
    exact .inl ⟨op, i, t, State.fetchWord_eq_some hfetch, hdecode, hexec, rfl⟩
  · exact .inr (s.afterFault_onlyChanges f)

/-- A host step that changes `DT` ran its load. -/
theorem hostStep_dt (d : Byte) (s : State) :
    (hostStep d s).1.dt = s.dt ∨ ∃ op x, s.opcodeAt op ∧ decode op = .ok (.ldDTVx x) := by
  obtain ⟨op, i, t, hop, hdecode, hexec, e⟩ | hframe := hostStep_ran_or_onlyChanges_pc d s
  · rw [e]
    exact (exec_dt hexec).imp_right fun ⟨x, hi, _⟩ => ⟨op, x, hop, hi ▸ hdecode⟩
  · exact .inl (hframe .delay (by simp))

/-- A host step that changes `ST` ran its load. -/
theorem hostStep_st (d : Byte) (s : State) :
    (hostStep d s).1.st = s.st ∨ ∃ op x, s.opcodeAt op ∧ decode op = .ok (.ldSTVx x) := by
  obtain ⟨op, i, t, hop, hdecode, hexec, e⟩ | hframe := hostStep_ran_or_onlyChanges_pc d s
  · rw [e]
    exact (exec_st hexec).imp_right fun ⟨x, hi, _⟩ => ⟨op, x, hop, hi ▸ hdecode⟩
  · exact .inl (hframe .sound (by simp))

/-- Settles O48: each tick counts both timers down, and a step that does not load a timer leaves it. -/
theorem ticksCountDownToZero : Obligations.TicksCountDownToZero :=
  ⟨fun s => ⟨rfl, tick_onlyChanges s⟩, runOps_ticks, fun d s =>
    ⟨fun hlower => (hostStep_dt d s).resolve_left fun e => by rw [e] at hlower; omega,
      fun hlower => (hostStep_st d s).resolve_left fun e => by rw [e] at hlower; omega⟩⟩

/-- Settles O53: `construct` compares the length with `MAX_IMAGE`, which is 3583. -/
theorem oversizeImageRefused : Obligations.OversizeImageRefused := by
  intro image
  have hmax : Config.maxImage = 3583 := rfl
  constructor
  · exact fun h => if_pos (hmax ▸ h)
  · intro h
    by_contra hfits
    rw [construct_ok (by omega)] at h
    cases h

end Sys2Proof.Machine
end

section
/-! CERTIFICATE. The statements about every instruction and every reachable state (10_state.md sections 10, 11 and 15;
60_exceptions.md section 1). -/

namespace Sys2Proof.Machine

/-! ### The invariant of reachable states (10_state.md R40) -/

/-- Where the fetch succeeds, `PC` two more does not wrap and is at most `MEM_SIZE`. -/
theorem toNat_pc_add_two {s : State} (h : s.pc.toNat + 1 < Config.memSize) : (s.pc + 2).toNat = s.pc.toNat + 2 := by
  rw [Config.memSize] at h
  rw [BitVec.toNat_add]; simp; omega

/-- Settles O58: memory stays canonical because instructions store bytes by `writeBytes`; `CALL` stacks the post-fetch `PC`, in a
slot other than 0; and every value of R24's table is bounded, the highest by 0xFFF + 0xFF. -/
theorem stepKeepsInvariant : Obligations.StepKeepsInvariant := by
  rintro s t ⟨hmem, hzero, hstack, hpc⟩ hstep
  obtain ⟨op, i, hfetch, -, hexec⟩ := step_next hstep
  have hnext := toNat_pc_add_two (State.fetchWord_eq_some hfetch).1
  have hfetched : s.pc.toNat + 1 < Config.memSize := (State.fetchWord_eq_some hfetch).1
  have hsize : Config.memSize = 0xFFF := rfl
  refine ⟨exec_keeps_wf hexec hmem, ?_, fun k => ?_, ?_⟩
  · obtain h | ⟨hne, -⟩ := exec_readStack hexec 0
    · exact h.trans hzero
    · exact absurd rfl hne
  · obtain h | ⟨-, h⟩ := exec_readStack hexec k <;> rw [h]
    · exact hstack k
    · rw [State.advance_pc]; omega
  · rw [exec_pc hexec]
    obtain h | h | h | h | ⟨nnn, -, h⟩ | ⟨nnn, -, h⟩ := pcAfter_cases i s.advance <;> rw [h]
    · rw [State.advance_pc]; omega
    · rw [State.advance_pc, BitVec.toNat_add, hnext]; simp; omega
    · simpa using hpc
    · exact (hstack _).trans (by decide)
    · omega
    · have := (s.advance.readV 0).isLt
      omega

/-- Settles O57: reset has no listed cell, an empty stack, and `PC` at `PROG_BASE`. -/
theorem resetMeetsInvariant : Obligations.ResetMeetsInvariant where
  memory := Memory.reset_wf
  slotZero := State.reset_readStack 0
  stacked k := by rw [State.reset_readStack]; decide
  counter := by decide

/-- An image is stored into the reset state, which keeps memory canonical. -/
theorem construct_meets_invariant {image : List Byte} {s : State} (h : construct image = .ok s) : s.Inv := by
  rw [construct_ok (length_le_of_construct_ok h)] at h
  cases h
  obtain ⟨hmem, hzero, hstack, hpc⟩ := resetMeetsInvariant
  exact ⟨Memory.writeBytes_keeps_wf hmem _ _, hzero, hstack, hpc⟩

theorem State.Inv.supply {s : State} (h : s.Inv) (bytes : List Byte) : (s.supply bytes).Inv :=
  ⟨h.memory, h.slotZero, h.stacked, h.counter⟩

/-- A faulting step leaves a state of the invariant: a fault past the fetch leaves `PC` where the fetch ended. -/
theorem State.Inv.afterFault {s : State} (h : s.Inv) {f : Fault} {d : Byte} (hstep : step (s.supply [d]) = .fault f) :
    (s.afterFault f).Inv := by
  by_cases hf : ∃ a, f = .memoryOutOfRange .fetch a
  · obtain ⟨a, rfl⟩ := hf
    exact h
  · have hne : ∀ a, f ≠ .memoryOutOfRange .fetch a := fun a e => hf ⟨a, e⟩
    have hfetched : s.pc.toNat + 1 < Config.memSize := pc_lt_of_step_fault (s := s.supply [d]) hstep hne
    have hsize : Config.memSize = 0xFFF := rfl
    rw [s.afterFault_of_ne_fetch hne]
    refine ⟨h.memory, h.slotZero, h.stacked, ?_⟩
    rw [State.writePc_pc, toNat_pc_add_two hfetched]; omega

theorem hostStep_keeps_invariant {s : State} (h : s.Inv) (d : Byte) : (hostStep d s).1.Inv := by
  obtain ⟨t, hstep, e⟩ | ⟨f, hstep, e⟩ := hostStep_cases d s <;> rw [e]
  · exact (stepKeepsInvariant _ t (h.supply [d]) hstep).supply _
  · exact h.afterFault hstep

theorem applyOp_keeps_invariant {s : State} (h : s.Inv) (op : HostOp) : (applyOp s op).1.Inv := by
  cases op with
  | step d => exact hostStep_keeps_invariant h d
  | tick | setKeypad => exact ⟨h.memory, h.slotZero, h.stacked, h.counter⟩
  | getDisplay | isPlayingSound => exact h

theorem runOps_keeps_invariant {s : State} (h : s.Inv) (ops : List HostOp) : (runOps s ops).Inv := by
  induction ops generalizing s with
  | nil => exact h
  | cons op rest ih => exact ih (applyOp_keeps_invariant h op)

/-- Settles O59: the invariant holds of a constructed machine, and every operation keeps it. Its clause on memory is the model's
form (log 3). -/
theorem reachableStatesMeetInvariant : Obligations.ReachableStatesMeetInvariant := by
  rintro _ ⟨image, s₀, ops, hs₀, rfl⟩
  exact runOps_keeps_invariant (construct_meets_invariant hs₀) ops

/-! ### Frame, flag and faults of every instruction -/

/-- Settles O54: the pieces by `exec_onlyChanges`, the registers by `exec_readV`, the bytes by `exec_byteAt_outside`. -/
theorem everyInstructionFrame : Obligations.EveryInstructionFrame := fun _ _ _ hwf h =>
  ⟨exec_onlyChanges h, fun _ => exec_readV h, fun _ => exec_byteAt_outside h hwf⟩

theorem flagByte_eq_zero_or_one (b : Bool) : flagByte b = 0 ∨ flagByte b = 1 := by
  cases b
  · exact .inl rfl
  · exact .inr rfl

/-- Settles O55: a flag writer writes `VF` last, and writes a truth value as a byte. -/
theorem flagIsZeroOrOne : Obligations.FlagIsZeroOrOne := by
  intro i s t hflag h
  cases i
  case addReg | sub | shr | subn | shl =>
    cases h; rw [State.readV_vf_writeWithFlag]; exact flagByte_eq_zero_or_one _
  case drw =>
    obtain ⟨-, ⟨⟩⟩ := State.withDataRange_next h
    rw [State.readV_writeV_same]; exact flagByte_eq_zero_or_one _
  all_goals cases hflag

/-- Settles O56: `exec_faultsExactly`. -/
theorem instructionFaultsExactlyWhen : Obligations.InstructionFaultsExactlyWhen := exec_faultsExactly

end Sys2Proof.Machine
end

section
/-! CERTIFICATE. The statements about the control-flow instructions (40_control_flow.md section 2). -/

namespace Sys2Proof.Machine

/-- Settles O12: neither target wraps, the sum being at most 0xFFF + 0xFF. -/
theorem jumpsReplacePc : Obligations.JumpsReplacePc :=
  ⟨fun nnn s => ⟨_, rfl, zextAddr_toNat nnn, s.writePc_onlyChanges _⟩,
    fun nnn s => ⟨_, rfl, jumpOffset_toNat nnn _, s.writePc_onlyChanges _⟩⟩

/-- Settles O13: the jump writes back the `PC` from before the fetch. -/
theorem jumpToSelfIsFixedPoint : Obligations.JumpToSelfIsFixedPoint := by
  intro d s nnn hnnn hop
  have hpc : zextAddr nnn = s.pc := BitVec.eq_of_toNat_eq ((zextAddr_toNat nnn).trans hnnn)
  have hstep : step (s.supply [d]) = .next (s.supply [d]) := by
    rw [(hop.supply [d]).step_eq_exec (decode_encode rfl)]
    exact congrArg (fun w => Host.Outcome.next ((s.supply [d]).writePc w)) hpc
  rw [hostStep_of_next hstep]; rfl

theorem val_add_one_of_ne_last {k : Fin 16} (h : k ≠ 15) : (k + 1).val = k.val + 1 := Fin.val_add_one_of_lt' (by omega)

theorem execCall_ok {nnn : Addr12} {s : State} (h : s.sp ≠ 15) :
    exec (.call nnn) s = .next ((s.push s.pc).writePc (zextAddr nnn)) := if_neg h

theorem execRet_ok {s : State} (h : s.sp ≠ 0) : exec .ret s = .next ((s.writePc (s.readStack s.sp)).pop) := if_neg h

/-- Settles O14: below 15 the pushed slot is `SP + 1`. -/
theorem callPushesReturnAddress : Obligations.CallPushesReturnAddress := by
  refine ⟨fun nnn s hsp => ⟨_, execCall_ok hsp, val_add_one_of_ne_last hsp, fun k => ?_, zextAddr_toNat nnn,
    exec_onlyChanges (execCall_ok hsp)⟩, fun nnn s hsp => ?_⟩
  · rw [State.writePc_readStack, State.readStack_push]
    simp only [Fin.ext_iff, val_add_one_of_ne_last hsp]
  · exact (execCall_faultsExactly nnn s).1 _ (if_pos hsp)

/-- Settles O15: above 0 the pointer moves down and no slot is written. -/
theorem returnPopsSlot : Obligations.ReturnPopsSlot := by
  refine ⟨fun s hsp => ⟨_, execRet_ok hsp, rfl, ?_, fun _ => rfl, exec_onlyChanges (execRet_ok hsp)⟩,
    fun s hsp => if_pos hsp⟩
  change (s.sp - 1).val + 1 = s.sp.val
  omega

/-- Settles O16: `CALL` completed with a free slot, which it filled with the post-fetch `PC`, and `RET` pops that slot wherever
`PC` stands. -/
theorem returnUndoesCall : Obligations.ReturnUndoesCall := by
  intro nnn s t w h
  obtain ⟨hsp, rfl⟩ := execCall_next h
  have hfull : s.sp + 1 ≠ 0 := by omega
  have hslot : (s.push s.pc).readStack (s.sp + 1) = s.pc := (s.readStack_push s.pc _).trans (if_pos rfl)
  have hexec : exec .ret (((s.push s.pc).writePc (zextAddr nnn)).writePc w) = .next (s.push s.pc).pop := by
    rw [execRet_ok (by exact hfull)]
    exact congrArg (fun a => Host.Outcome.next ((s.push s.pc).writePc a).pop) hslot
  refine ⟨_, hexec, rfl, add_sub_cancel_right s.sp 1, fun k hk => ?_,
    ((s.push_onlyChanges _).trans (State.pop_onlyChanges _)).mono (by simp)⟩
  refine (s.readStack_push s.pc k).trans (if_neg fun e => hk ?_)
  rw [e, val_add_one_of_ne_last hsp]

section
variable (s : State) (c : Prop) [Decidable c]

/-- A skip on the condition `c`, however the meaning writes it as a truth value (R100). -/
theorem skipIf_spec {cond : Bool} (h : cond = true ↔ c) :
    ∃ t, skipIf cond s = .next t ∧ t.pc = (if c then s.pc + 2 else s.pc) ∧ OnlyChanges [.pc] s t :=
  ⟨_, skipIf_eq cond s, by simp only [State.writePc_pc, h], s.writePc_onlyChanges _⟩

/-- A skip on the negation of `c`. -/
theorem skipIf_spec_not {cond : Bool} (h : cond = true ↔ ¬ c) :
    ∃ t, skipIf cond s = .next t ∧ t.pc = (if c then s.pc else s.pc + 2) ∧ OnlyChanges [.pc] s t :=
  ⟨_, skipIf_eq cond s, by simp only [State.writePc_pc, h, ite_not], s.writePc_onlyChanges _⟩

end

/-- Settles O17: `skipIf` on equality with the immediate and on its negation. -/
theorem immediateSkips : Obligations.ImmediateSkips := fun _ _ s =>
  ⟨skipIf_spec s _ beq_iff_eq, skipIf_spec_not s _ bne_iff_ne⟩

/-- Settles O18: `skipIf` on equality of the two registers and on its negation. -/
theorem registerSkips : Obligations.RegisterSkips := fun _ _ s =>
  ⟨skipIf_spec s _ beq_iff_eq, skipIf_spec_not s _ bne_iff_ne⟩

end Sys2Proof.Machine
end

section
/-! CERTIFICATE. The statements about the load, logic and random instructions (41_alu.md). -/

namespace Sys2Proof.Machine

/-- What writing one register answers: the value in it, and every other register and piece as it was. -/
theorem writeV_spec (s : State) (x : Reg) (b : Byte) :
    (s.writeV x b).readV x = b ∧ (∀ r, r ≠ x → (s.writeV x b).readV r = s.readV r) ∧
    OnlyChanges [.regs] s (s.writeV x b) :=
  ⟨s.readV_writeV_same x b, fun _ => s.readV_writeV_ne b, s.writeV_onlyChanges x b⟩

/-- Settles O21: each writes its one value by `writeV`. -/
theorem immediateAndRegisterLoads : Obligations.ImmediateAndRegisterLoads := by
  refine ⟨fun x kk s => ⟨_, rfl, writeV_spec s x kk⟩, fun x kk s => ⟨_, rfl, ?_, (writeV_spec s x _).2⟩,
    fun x y s => ⟨_, rfl, writeV_spec s x _⟩⟩
  rw [State.readV_writeV_same, BitVec.toNat_ofNat]

/-- Settles O22: the operations of words are those of their bits. -/
theorem logicBitByBit : Obligations.LogicBitByBit := by
  refine fun x y s => ⟨⟨_, rfl, fun k _ => ?_, (writeV_spec s x _).2⟩, ⟨_, rfl, fun k _ => ?_, (writeV_spec s x _).2⟩,
    ⟨_, rfl, fun k _ => ?_, (writeV_spec s x _).2⟩⟩
  · rw [State.readV_writeV_same, BitVec.getLsbD_or]
  · rw [State.readV_writeV_same, BitVec.getLsbD_and]
  · rw [State.readV_writeV_same, BitVec.getLsbD_xor]

/-- Settles O25: the difference over the integers is cut to a byte, and the strict comparison is written last. -/
theorem subnGivesDifferenceAndGreater : Obligations.SubnGivesDifferenceAndGreater := by
  intro x y s
  refine ⟨_, rfl, fun hx => ?_, ?_, fun _ hzx hz => s.readV_other_writeWithFlag _ _ hzx hz,
    s.writeWithFlag_onlyChanges _ _ _⟩
  · rw [s.readV_dest_writeWithFlag _ _ hx, toNat_byteOfInt]
  · rw [s.readV_vf_writeWithFlag, greaterFlag_eq]

/-! ### The draw (R39, R122; log 1) -/

theorem State.draw_supplied {s : State} {d : Byte} {rest : List Byte} (h : s.entropyIn = d :: rest) : s.draw = d := by
  rw [State.draw, h]; rfl

theorem State.draw_free {s : State} (h : s.entropyIn = []) : s.draw = Config.entropy s.entropyCount := by
  rw [State.draw, h]; rfl

theorem State.consumeDraw_supplied {s : State} {d : Byte} {rest : List Byte} (h : s.entropyIn = d :: rest) :
    s.consumeDraw = s.supply rest := by
  simp [State.consumeDraw, State.supply, h]

theorem State.consumeDraw_free {s : State} (h : s.entropyIn = []) :
    s.consumeDraw = { s with entropyCount := s.entropyCount + 1 } := if_pos h

/-- `RND` writes its destination from the draw and consumes the draw, in every state. -/
theorem execRnd_spec (x : Reg) (kk : Byte) (s : State) :
    (s.consumeDraw.writeV x (s.draw &&& kk)).readV x = s.draw &&& kk ∧
    (∀ r, r ≠ x → (s.consumeDraw.writeV x (s.draw &&& kk)).readV r = s.readV r) ∧
    OnlyChanges [.regs, .entropy] s (s.consumeDraw.writeV x (s.draw &&& kk)) :=
  ⟨State.readV_writeV_same _ x _, fun r hr => (State.readV_writeV_ne _ _ hr).trans (s.consumeDraw_readV r),
    exec_onlyChanges (i := .rnd x kk) rfl⟩

/-- Settles O28: the byte supplied is the draw, and putting the supplied list back undoes the draw's own change. -/
theorem randomIsDrawUnderMask : Obligations.RandomIsDrawUnderMask := by
  intro d s op x kk hop hdecode
  have hexec : exec (.rnd x kk) (s.supply [d]).advance = .next ((s.supply []).advance.writeV x (d &&& kk)) := rfl
  have hhost : hostStep d s = (s.advance.writeV x (d &&& kk), .ok) :=
    hostStep_of_next (((hop.supply [d]).step_eq_exec hdecode).trans hexec)
  obtain ⟨hdest, hother, hframe⟩ := writeV_spec s.advance x (d &&& kk)
  rw [hhost]
  exact ⟨rfl, hdest, hother, rfl, ((s.writePc_onlyChanges _).trans hframe).mono (by simp)⟩

/-- Settles O29: the two forms of the draw. -/
theorem randomConsumesOneDraw : Obligations.RandomConsumesOneDraw := by
  refine ⟨fun x kk d rest s h => ⟨_, rfl, ?_⟩, fun x kk s h => ⟨_, rfl, ?_⟩⟩
  · obtain ⟨hdest, hother, hframe⟩ := execRnd_spec x kk s
    refine ⟨hdest.trans (by rw [State.draw_supplied h]), ?_, ?_, hother, hframe⟩
    · rw [State.consumeDraw_supplied h]; rfl
    · rw [State.consumeDraw_supplied h]; rfl
  · obtain ⟨hdest, hother, hframe⟩ := execRnd_spec x kk s
    refine ⟨hdest.trans (by rw [State.draw_free h]), ?_, ?_, hother, hframe⟩
    · rw [State.consumeDraw_free h]; exact h
    · rw [State.consumeDraw_free h]; rfl

end Sys2Proof.Machine
end

section
/-! CERTIFICATE. The statements about the index register and memory (42_index_memory.md; 20_memory.md). -/

namespace Sys2Proof.Machine

/-- Settles O31: neither operand is cut, and the sum wraps at 16 bits. -/
theorem indexLoadAndAdd : Obligations.IndexLoadAndAdd := by
  refine ⟨fun nnn s => ⟨_, rfl, zextAddr_toNat nnn, s.writeI_onlyChanges _⟩,
    fun x s => ⟨_, rfl, ?_, s.writeI_onlyChanges _⟩⟩
  rw [State.writeI_i, BitVec.toNat_add, zextByte_toNat]

theorem glyphAddr_toNat (d : Fin 16) : (glyphAddr d).toNat = 0x050 + 5 * d.val := by
  have := d.isLt
  rw [glyphAddr, Config.fontBase, Config.glyphBytes, BitVec.toNat_ofNat]; omega

theorem execLdFVx_ok {x : Reg} {s : State} (h : (s.readV x).toNat < 16) :
    exec (.ldFVx x) s = .next (s.writeI (glyphAddr ⟨(s.readV x).toNat, h⟩)) :=
  s.withGlyph_ok (fun d => .next (s.writeI (glyphAddr d))) h

/-- Settles O32: the check of the digit passes to the glyph's address, or is the fault. -/
theorem glyphAddressOrFault : Obligations.GlyphAddressOrFault :=
  ⟨fun _ s h => ⟨_, execLdFVx_ok (Nat.lt_succ_of_le h), glyphAddr_toNat _, s.writeI_onlyChanges _⟩,
    fun x s h => (exec_faultsExactly (.ldFVx x) s).1 _ (if_pos h)⟩

/-- Settles O36: where the highest address does not exist, the fault condition of each of the four holds. -/
theorem dataAccessOutsideMemoryFaults : Obligations.DataAccessOutsideMemoryFaults := by
  have hfault : ∀ {s : State} {k : Nat}, k ≠ 0 → Config.memSize ≤ s.i.toNat + k - 1 →
      s.dataFault k = some (.memoryOutOfRange .data (s.i.toNat + k - 1)) := fun hk h => if_pos ⟨hk, h⟩
  refine fun s => ⟨fun x h => (exec_faultsExactly (.ldBVx x) s).1 _ (hfault (Nat.succ_ne_zero 2) h),
    fun x h => ⟨(exec_faultsExactly (.ldMemVx x) s).1 _ (hfault (Nat.succ_ne_zero x) h),
      (exec_faultsExactly (.ldVxMem x) s).1 _ (hfault (Nat.succ_ne_zero x) h)⟩,
    fun x y n hn h => (exec_faultsExactly (.drw x y n) s).1 _ (hfault (fun e => hn (BitVec.eq_of_toNat_eq e)) h)⟩

/-! ### Stores and loads through `I` (R133 to R136) -/

section
variable {x : Reg} {s : State}

theorem execLdBVx_ok (h : s.i.toNat + 2 < Config.memSize) :
    exec (.ldBVx x) s = .next (s.storeBytes s.i.toNat (bcdDigits (s.readV x))) := s.withDataRange_ok _ (.inr h)

theorem execLdMemVx_ok (h : s.i.toNat + x.val < Config.memSize) :
    exec (.ldMemVx x) s = .next (s.storeBytes s.i.toNat (s.regsThrough x)) := s.withDataRange_ok _ (.inr h)

theorem execLdVxMem_ok (h : s.i.toNat + x.val < Config.memSize) :
    exec (.ldVxMem x) s = .next (s.writeRegs (s.regsLoaded x)) := s.withDataRange_ok _ (.inr h)

/-- A store of registers that completed had its bytes in memory (R60). -/
theorem lt_memSize_of_execLdMemVx_next {t : State} (h : exec (.ldMemVx x) s = .next t) : s.i.toNat + x.val < Config.memSize :=
  (State.withDataRange_next h).1.resolve_left (Nat.succ_ne_zero _)

end

/-- Settles O33: the three digits are the stored bytes, each below 256 as a number. -/
theorem decimalDigitsStored : Obligations.DecimalDigitsStored := by
  intro x s hwf hfit
  have hbyte : ∀ k (hk : k < 3), (s.storeBytes s.i.toNat (bcdDigits (s.readV x))).byteAt (s.i.toNat + k) =
      (bcdDigits (s.readV x))[k] := fun k hk =>
    State.byteAt_storeBytes_inside (bs := bcdDigits (s.readV x)) hwf k hk (by rw [bcdDigits_length]; omega)
  have hlt := (s.readV x).isLt
  refine ⟨_, execLdBVx_ok hfit, ?_, ?_, ?_, fun a ha => State.byteAt_storeBytes_outside hwf ha, s.storeBytes_onlyChanges _ _⟩
  · refine (congrArg BitVec.toNat (hbyte 0 (by decide))).trans ?_
    exact Nat.mod_eq_of_lt (by omega)
  · rw [hbyte 1 (by decide)]
    exact Nat.mod_eq_of_lt (by omega)
  · rw [hbyte 2 (by decide)]
    exact Nat.mod_eq_of_lt (by omega)

/-- Settles O34: the stored bytes are the registers in ascending order. -/
theorem registersStored : Obligations.RegistersStored := by
  intro x s hwf hfit
  have hlen := s.regsThrough_length x
  refine ⟨_, execLdMemVx_ok hfit, fun r hr => ?_, fun a ha => State.byteAt_storeBytes_outside hwf (by rwa [hlen]),
    s.storeBytes_onlyChanges _ _⟩
  have hr' : r.val < (s.regsThrough x).length := hlen ▸ Nat.lt_succ_of_le hr
  rw [State.byteAt_storeBytes_inside hwf r.val hr' (by rw [hlen]; omega), s.regsThrough_get]

/-- Settles O35: the register file written is `regsLoaded`. -/
theorem registersLoaded : Obligations.RegistersLoaded := by
  refine fun x s hfit => ⟨_, execLdVxMem_ok hfit, fun r hr => ?_, fun r hr => ?_, s.writeRegs_onlyChanges _⟩
  · rw [State.writeRegs_readV, s.regsLoaded_get, if_pos hr]
  · rw [State.writeRegs_readV, s.regsLoaded_get, if_neg (not_le_of_gt hr)]

/-- What a store of registers that completed left at `I` and up, and that `I` and `PC` stayed. -/
theorem execLdMemVx_stored {x : Reg} {s t : State} (hwf : s.mem.wf = true) (h : exec (.ldMemVx x) s = .next t) :
    (∀ r : Reg, r ≤ x → t.byteAt (s.i.toNat + r.val) = s.readV r) ∧ t.i = s.i ∧ t.pc = s.pc := by
  obtain ⟨u, hexec, hstored, -, hframe⟩ := registersStored x s hwf (lt_memSize_of_execLdMemVx_next h)
  obtain rfl : u = t := Host.Outcome.next.inj (hexec.symm.trans h)
  exact ⟨hstored, hframe .index (by simp), hframe .pc (by simp)⟩

/-- Settles O37: the load reads the bytes the store left, `I` being the same. -/
theorem storeThenLoadRestores : Obligations.StoreThenLoadRestores := by
  intro x s t hwf h
  obtain ⟨hstored, hi, -⟩ := execLdMemVx_stored hwf h
  have hfit := lt_memSize_of_execLdMemVx_next h
  obtain ⟨u, hexec, hloaded, habove, -⟩ := registersLoaded x (t.writeRegs (Vector.replicate 16 0)) (by simpa [hi] using hfit)
  refine ⟨u, hexec, fun r hr => ?_, fun r hr => ?_⟩
  · rw [hloaded r hr, State.writeRegs_byteAt, State.writeRegs_i, hi, hstored r hr]
  · rw [habove r hr]
    simp [Vector.get_eq_getElem]

/-- Settles O38: the bytes stored at `I` = `PC` are the opcode the next step fetches. -/
theorem nextFetchSeesStore : Obligations.NextFetchSeesStore := by
  intro x i s t hwf hx hi h hdecode
  obtain ⟨hstored, -, hpc⟩ := execLdMemVx_stored hwf h
  have hfit := lt_memSize_of_execLdMemVx_next h
  have hhigh : t.byteAt t.pc.toNat = s.readV 0 := by rw [hpc, ← hi]; exact hstored 0 (Fin.zero_le x)
  have hlow : t.byteAt (t.pc.toNat + 1) = s.readV 1 := by rw [hpc, ← hi]; exact hstored 1 hx
  refine stepRunsDecodedInstruction t i ?_ (by rw [hhigh, hlow]; exact hdecode)
  rw [hpc, ← hi]; omega

/-! ### The checked accesses (20_memory.md R54, R55) -/

theorem State.memRead1_of_lt (s : State) {a : Nat} (h : a < Config.memSize) : s.memRead1 a = some (s.byteAt a) := if_pos h

/-- Settles O39: the checks pass exactly inside memory, and the unchecked accesses obey read after write. -/
theorem memoryReadAfterWrite : Obligations.MemoryReadAfterWrite := by
  intro s a b hwf
  refine ⟨fun ha => ⟨_, if_pos ha, ?_, fun c hc => ?_, s.storeBytes_onlyChanges _ _⟩,
    fun ha => ⟨if_neg (by omega), if_neg (by omega)⟩,
    fun ha => ⟨_, _, s.memRead1_of_lt (by omega), s.memRead1_of_lt ha, if_pos ha⟩, fun ha => if_neg (by omega)⟩
  · rw [State.memRead1_of_lt _ ha]
    exact congrArg some (State.byteAt_storeBytes_inside hwf (bs := [b]) 0 Nat.zero_lt_one ha)
  · simp only [State.memRead1]
    rw [State.byteAt_storeBytes_outside hwf (by rw [List.length_singleton]; omega)]

end Sys2Proof.Machine
end

section
/-! CERTIFICATE. The statements about the display (43_display.md section 2). -/

namespace Sys2Proof.Machine

/-- Settles O40: the display written is the clear one. -/
theorem clearTurnsAllOff : Obligations.ClearTurnsAllOff := fun s =>
  ⟨_, rfl, Display.cell_clear, s.writePix_onlyChanges _⟩

/-- The display, and whether a cell was erased, after `n` sprite rows at `I` are drawn from origin (`ox`, `oy`). -/
def State.drawn (s : State) (ox oy n : Nat) : Display × Bool := drawRows ox oy (s.spriteRows n) (s.pix, false)

theorem execDrw_ok {x y : Reg} {n : Nibble} {s : State} (h : n = 0 ∨ s.i.toNat + n.toNat - 1 < Config.memSize) :
    exec (.drw x y n) s =
      .next ((s.writePix (s.drawn (s.readV x).toNat (s.readV y).toNat n.toNat).1).writeV vf
        (flagByte (s.drawn (s.readV x).toNat (s.readV y).toNat n.toNat).2)) :=
  s.withDataRange_ok _ (h.imp_left fun e => by rw [e]; rfl)

section
variable (s : State) (ox oy : Nat) {n : Nat} (hn : n ≤ 32)
include hn

/-- The rows of a sprite fall on no cell twice (R142). -/
theorem nodup_spriteCells : (rowsCells ox oy (s.spriteRows n)).Nodup :=
  nodup_rowsCells ox oy _ (by simpa [State.spriteRows] using hn)

/-- So drawing inverts each covered cell once (R141). -/
theorem State.drawn_cell (x : Fin 64) (y : Fin 32) :
    (s.drawn ox oy n).1.cell x y = (s.pix.cell x y != s.spriteCovers ox oy n x y) := by
  have hcovers : decide ((x, y) ∈ rowsCells ox oy (s.spriteRows n)) = s.spriteCovers ox oy n x y := by
    rw [Bool.eq_iff_iff, decide_eq_true_eq, s.mem_spriteCells ox oy n hn]
  rw [State.drawn, drawRows_eq_foldl, (Display.foldl_invertCell _ (nodup_spriteCells s ox oy hn) _).1, hcovers]

/-- The collision is that some covered cell was ON (R141). -/
theorem State.drawn_collision :
    (s.drawn ox oy n).2 = decide (∃ x y, s.pix.cell x y = true ∧ s.spriteCovers ox oy n x y = true) := by
  rw [State.drawn, drawRows_eq_foldl, (Display.foldl_invertCell _ (nodup_spriteCells s ox oy hn) _).2, Bool.false_or]
  simp only [Prod.exists, s.mem_spriteCells ox oy n hn, and_comm]

end

/-- Settles O41: each covered cell is inverted once, so the cells that went from ON to OFF are the covered ones that were ON. -/
theorem drawInvertsCoveredCells : Obligations.DrawInvertsCoveredCells := by
  intro x y n s hfit
  have hn : n.toNat ≤ 32 := by omega
  have hexec := execDrw_ok (x := x) (y := y) hfit
  have hcell := s.drawn_cell (s.readV x).toNat (s.readV y).toNat hn
  refine ⟨_, hexec, hcell, ?_, fun r hr => State.readV_writeV_ne _ _ hr, exec_onlyChanges hexec⟩
  rw [State.readV_writeV_same, s.drawn_collision _ _ hn, flagByte_decide]
  refine if_congr (exists₂_congr fun cx cy => and_congr_right fun hon => ?_) rfl rfl
  rw [State.writeV_pix, State.writePix_pix, hcell, hon]
  cases s.spriteCovers _ _ _ cx cy <;> simp

/-- A drawing that completed had its rows in memory, or none (R60). -/
theorem execDrw_fits {x y : Reg} {n : Nibble} {s t : State} (h : exec (.drw x y n) s = .next t) :
    n = 0 ∨ s.i.toNat + n.toNat - 1 < Config.memSize :=
  (State.withDataRange_next h).1.imp_left fun e => BitVec.eq_of_toNat_eq e

/-- The bits a sprite puts on the display depend on `I` and memory alone. -/
theorem State.spriteCovers_congr {s t : State} (hi : t.i = s.i) (hmem : ∀ a, t.byteAt a = s.byteAt a) (ox oy n : Nat) :
    t.spriteCovers ox oy n = s.spriteCovers ox oy n := by
  funext cx cy
  simp only [State.spriteCovers, hi, hmem]

/-- Settles O42: the second drawing covers the same cells, and inverting a cell twice restores it; from a clear display the first
one erases nothing, and the second what the first lit. -/
theorem drawTwiceRestores : Obligations.DrawTwiceRestores := by
  intro x y n s t hx hy h
  obtain ⟨t', hexec, hfirst, hflag, hregs, hframe⟩ := drawInvertsCoveredCells x y n s (execDrw_fits h)
  obtain rfl : t' = t := Host.Outcome.next.inj (hexec.symm.trans h)
  have hi : t'.i = s.i := hframe .index (by simp)
  obtain ⟨u, hexec', hsecond, hflag', -, -⟩ := drawInvertsCoveredCells x y n t' (by rw [hi]; exact execDrw_fits h)
  have hpix : u.pix = s.pix := Display.ext_cells fun cx cy => by
    rw [hsecond, hfirst, hregs x hx, hregs y hy, State.spriteCovers_congr hi (hframe .memory (by simp)), Bool.bne_assoc,
      bne_self_eq_false, Bool.bne_false]
  refine ⟨u, hexec', hpix, fun hclear => ⟨?_, ?_⟩⟩
  · simp [hflag, hclear]
  · simp [hflag', hpix, hclear]

end Sys2Proof.Machine
end

section
/-! CERTIFICATE. The statements about the keypad and timer instructions (44_keypad_timers.md). -/

namespace Sys2Proof.Machine

section
variable {s : State} {x : Reg} {k : Fin 16} (h : (s.readV x).toNat = k.val)
include h

/-- The key that `V[x]` numbers is passed on (R150). -/
theorem State.withKey_eq (go : Fin 16 → Result) : s.withKey x go = go k := by
  rw [State.withKey_ok go (h ▸ k.isLt)]
  exact congrArg go (Fin.ext h)

theorem execSkp_ok : exec (.skp x) s = skipIf (s.readKey k) s :=
  State.withKey_eq h fun k => skipIf (s.readKey k) s

theorem execSknp_ok : exec (.sknp x) s = skipIf (!s.readKey k) s :=
  State.withKey_eq h fun k => skipIf (!s.readKey k) s

end

/-- Settles O43: `skipIf` on the key's state and on its negation, and the check's fault. -/
theorem keySkips : Obligations.KeySkips := by
  refine ⟨fun x k s h => ⟨?_, ?_⟩, fun x s h =>
    ⟨(exec_faultsExactly (.skp x) s).1 _ (if_pos h), (exec_faultsExactly (.sknp x) s).1 _ (if_pos h)⟩⟩
  · rw [execSkp_ok h]; exact skipIf_spec s _ Iff.rfl
  · rw [execSknp_ok h]; exact skipIf_spec_not s _ (by simp)

theorem State.lowestKey_eq_some {s : State} {k : Fin 16} (hk : s.readKey k = true)
    (hleast : ∀ j, j < k → s.readKey j = false) : s.lowestKey = some k := by
  cases h : s.lowestKey with
  | none => rw [State.lowestKey_none.mp h k] at hk; cases hk
  | some j =>
    obtain ⟨hj, hleast'⟩ := State.lowestKey_some h
    obtain hlt | rfl | hlt := lt_trichotomy j k
    · rw [hleast j hlt] at hj; cases hj
    · rfl
    · rw [hleast' k hlt] at hk; cases hk

theorem execLdVxK_pressed {s : State} {k : Fin 16} (x : Reg) (h : s.lowestKey = some k) :
    exec (.ldVxK x) s = .next (s.writeV x (BitVec.ofNat 8 k.val)) := by
  simp only [exec, execLdVxK, h]

theorem execLdVxK_waiting {s : State} (x : Reg) (h : ∀ k, s.readKey k = false) :
    exec (.ldVxK x) s = .next (s.writePc (s.pc - 2)) := by
  simp only [exec, execLdVxK, State.lowestKey_none.mpr h]

/-- Settles O44: with a key the least one's number is written; with none `PC` goes back to where the step began, which undoes the
fetch. -/
theorem waitKeyPress : Obligations.WaitKeyPress := by
  refine ⟨fun x k s hk hleast => ⟨_, execLdVxK_pressed x (State.lowestKey_eq_some hk hleast), ?_, (writeV_spec s x _).2⟩,
    fun x s h => ⟨_, execLdVxK_waiting x h, rfl, s.writePc_onlyChanges _⟩, fun d op x s hop hdecode h => ?_⟩
  · rw [State.readV_writeV_same, BitVec.toNat_ofNat]
    exact Nat.mod_eq_of_lt (by omega)
  · have hpc : s.pc + 2 - 2 = s.pc := BitVec.add_sub_cancel s.pc 2
    have hexec : exec (.ldVxK x) (s.supply [d]).advance = .next (s.supply [d]) :=
      (execLdVxK_waiting (s := (s.supply [d]).advance) x h).trans
        (congrArg (fun w => Host.Outcome.next ((s.supply [d]).writePc w)) hpc)
    rw [hostStep_of_next (((hop.supply [d]).step_eq_exec hdecode).trans hexec)]; rfl

/-- Settles O45: each moves the byte by the one write of its destination. -/
theorem timerMoves : Obligations.TimerMoves := fun x s =>
  ⟨⟨_, rfl, writeV_spec s x s.dt⟩, ⟨_, rfl, rfl, s.writeDt_onlyChanges _⟩, ⟨_, rfl, rfl, s.writeSt_onlyChanges _⟩⟩

end Sys2Proof.Machine
end
